-- ==== Sys2Proof/Word.lean ====
section
/-!
DEFINITION. The words of the engine: lanes of 32 bits, the three words-of-four `A`, `B`, `C`, a
column across them, bytes and 48-byte sequences (00_scope.md R7, R9, R13; 10_state.md R20, R21).
-/

namespace Sys2Proof

/-- A lane: a 32-bit unsigned integer, bit 31 the most significant (R7). -/
abbrev Word := BitVec 32

/-- A byte (R50). -/
abbrev Byte := BitVec 8

/-- A 48-byte sequence, byte 0 first (R11): a `LOAD` payload, a `READ` answer, the byte view. -/
abbrev Bytes48 := Vector Byte 48

/-- The 384 wires of `cmd_wdata` and `rsp_rdata` (R34, R53). -/
abbrev Bus := BitVec 384

/-- A word-of-four of the document: the lanes `[w0, w1, w2, w3]` (R20). -/
@[ext] structure Row where
  w0 : Word
  w1 : Word
  w2 : Word
  w3 : Word
  deriving DecidableEq, Repr

/-- The State of the document: the three words `A`, `B`, `C`, 384 bits (R20, R24 a). -/
@[ext] structure Lanes where
  A : Row
  B : Row
  C : Row
  deriving DecidableEq, Repr

/-- A column `(A[j], B[j], C[j])` in the glossary's sense (R13, R21). -/
@[ext] structure Column where
  a : Word
  b : Word
  c : Word
  deriving DecidableEq, Repr

/-- Four lanes of zero. -/
def Row.zero : Row := ⟨0, 0, 0, 0⟩

/-- The zero-initialized State (R25, R35). -/
def Lanes.zero : Lanes := ⟨Row.zero, Row.zero, Row.zero⟩

end Sys2Proof
end

