-- ==== Sys2Proof/Config.lean ====
section
/-!
DEFINITION. The free values of the model: what the output ports show where the spec leaves them
unspecified (R87, R242, R248; 93_implementation_defined.md I6, I7; log entry 5). None has a body, so
no proof can know a value of one. The first argument is the model's step counter, so that two steps
need not show the same value; the second is the byte view of the lanes, or `none` while a `PERM` runs,
where R180 and R248 forbid every port to carry a function of the lanes.
-/

namespace Sys2Proof.Config

/-- `rsp_err` while `rsp_valid = 0` (R248, I6). -/
opaque unspecErr : Nat → Option Bytes48 → Bool

/-- `rsp_rdata` in every cycle that is not the response of a `READ` (R87, R248, I6). -/
opaque unspecRdata : Nat → Option Bytes48 → Bytes48

/-- `rsp_valid` before the first reset (R242, I7). -/
opaque unspecValid : Nat → Option Bytes48 → Bool

/-- The part of `cmd_ready` that depends on `busy`, before the first reset (R242, I7). -/
opaque unspecReady : Nat → Option Bytes48 → Bool

end Sys2Proof.Config
end

