-- ==== Sys2Proof/Syntax.lean ====
section
/-!
DEFINITION. The instructions: one constructor per row of spec/opcode_table.json. The first four are the
host's commands (format `CMD`, R80 to R82), the last four the scheduler's micro-operations (format
`UOP`, R88, R89). A command carries the two fields every command has, `len` and the payload `wdata`
(R81), also where it ignores them (R83, R85), so that no bit of an encoding is lost (log entry 13).
-/

namespace Sys2Proof

/-- An instruction of the engine. -/
inductive Instr where
  | clr (len : BitVec 8) (wdata : Bytes48)
  | load (len : BitVec 8) (wdata : Bytes48)
  | perm (len : BitVec 8) (wdata : Bytes48)
  | read (len : BitVec 8) (wdata : Bytes48)
  | spbox
  | sswap
  | bswap
  | addrc (idx : BitVec 3)
  deriving DecidableEq, Repr

/-- The two instruction formats (R80). -/
inductive Format where
  | cmd
  | uop
  deriving DecidableEq, Repr

/-- Which level an instruction belongs to: offered by the host, or held in the schedule ROM (R80). -/
def Instr.format : Instr → Format
  | .clr _ _ => .cmd
  | .load _ _ => .cmd
  | .perm _ _ => .cmd
  | .read _ _ => .cmd
  | .spbox => .uop
  | .sswap => .uop
  | .bswap => .uop
  | .addrc _ => .uop

/-- The mnemonic of the instruction's row (R82, R89). -/
def Instr.mnemonic : Instr → String
  | .clr _ _ => "CLR"
  | .load _ _ => "LOAD"
  | .perm _ _ => "PERM"
  | .read _ _ => "READ"
  | .spbox => "SPBOX"
  | .sswap => "SSWAP"
  | .bswap => "BSWAP"
  | .addrc _ => "ADDRC"

end Sys2Proof
end

