-- ==== Sys2Proof/WellFormed.lean ====
section
/-!
DEFINITION. Which instructions exist. The one check is the constant index of `ADDRC` (R88, R90): there
are six round constants, and `ADDRC 6`, `ADDRC 7` are reserved. Every command is legal to issue with
every `len` and every payload (R85).
-/

namespace Sys2Proof

/-- The instruction is one the spec gives a meaning (R85, R90). -/
def Instr.wf : Instr → Bool
  | .clr _ _ => true
  | .load _ _ => true
  | .perm _ _ => true
  | .read _ _ => true
  | .spbox => true
  | .sswap => true
  | .bswap => true
  | .addrc idx => decide (idx.toNat < 6)

end Sys2Proof
end

