-- ==== Sys2Proof/Decode.lean ====
section
/-!
DEFINITION. Decoding and encoding (30_encoding.md R81 to R93), and the opcode table as rows of match and
mask. A command is what stands on the ports `cmd` and `cmd_wdata`; a uop is a word of the schedule ROM.
-/

namespace Sys2Proof

/-- An encoded instruction: the words a decoder is given, of either format (R80, R81, R88). -/
inductive Encoded where
  | cmd (word : BitVec 10) (wdata : Bytes48)
  | uop (word : BitVec 5)
  deriving DecidableEq, Repr

/-- Why a word is no instruction. -/
inductive DecodeError where
  /-- A reserved uop word (R90). -/
  | reservedUop (word : BitVec 5)
  deriving DecidableEq, Repr

/-- `cmd[1:0]`, the operation (R81). -/
def cmdOp (word : BitVec 10) : BitVec 2 := word.extractLsb' 0 2

/-- `cmd[9:2]`, the length field (R81, R84). -/
def cmdLen (word : BitVec 10) : BitVec 8 := word.extractLsb' 2 8

/-- A command word from its fields (R81). -/
def cmdWord (len : BitVec 8) (op : BitVec 2) : BitVec 10 := len ++ op

/-- `uop[1:0]`, the micro-operation (R88). -/
def uopKind (word : BitVec 5) : BitVec 2 := word.extractLsb' 0 2

/-- `uop[4:2]`, the constant index (R88). -/
def uopIdx (word : BitVec 5) : BitVec 3 := word.extractLsb' 2 3

/-- A uop word from its fields (R88). -/
def uopWord (idx : BitVec 3) (kind : BitVec 2) : BitVec 5 := idx ++ kind

/-- The opcode map of `op`, complete: no command word is illegal (R82, R85). -/
def decodeCmd (word : BitVec 10) (wdata : Bytes48) : Instr :=
  if cmdOp word = 0b00 then .clr (cmdLen word) wdata
  else if cmdOp word = 0b01 then .load (cmdLen word) wdata
  else if cmdOp word = 0b10 then .perm (cmdLen word) wdata
  else .read (cmdLen word) wdata

/-- The opcode map of `kind` (R89), the reserved words refused (R90). -/
def decodeUop (word : BitVec 5) : Except DecodeError Instr :=
  if uopKind word = 0b11 then
    if (uopIdx word).toNat < 6 then .ok (.addrc (uopIdx word)) else .error (.reservedUop word)
  else if uopIdx word ≠ 0 then .error (.reservedUop word)
  else if uopKind word = 0b00 then .ok .spbox
  else if uopKind word = 0b01 then .ok .sswap
  else .ok .bswap

/-- The decoder, total on every word of both formats. -/
def decode : Encoded → Except DecodeError Instr
  | .cmd word wdata => .ok (decodeCmd word wdata)
  | .uop word => decodeUop word

/-- The encoder (R81, R82, R88, R89). -/
def encode : Instr → Encoded
  | .clr len wdata => .cmd (cmdWord len 0b00) wdata
  | .load len wdata => .cmd (cmdWord len 0b01) wdata
  | .perm len wdata => .cmd (cmdWord len 0b10) wdata
  | .read len wdata => .cmd (cmdWord len 0b11) wdata
  | .spbox => .uop (uopWord 0 0b00)
  | .sswap => .uop (uopWord 0 0b01)
  | .bswap => .uop (uopWord 0 0b10)
  | .addrc idx => .uop (uopWord idx 0b11)

/-- The format a word is of. -/
def Encoded.format : Encoded → Format
  | .cmd _ _ => .cmd
  | .uop _ => .uop

/-- The instruction word as a number, bit 0 least significant, without the payload. -/
def Encoded.bits : Encoded → Nat
  | .cmd word _ => word.toNat
  | .uop word => word.toNat

/-- A row of the opcode table: format, width, match and mask. -/
structure TableRow where
  mnemonic : String
  format : Format
  width : Nat
  matchBits : Nat
  mask : Nat
  deriving DecidableEq, Repr

/-- The match and mask columns of R82 and R89. -/
def opcodeTable : List TableRow :=
  [ ⟨"CLR", .cmd, 10, 0x000, 0x003⟩,
    ⟨"LOAD", .cmd, 10, 0x001, 0x003⟩,
    ⟨"PERM", .cmd, 10, 0x002, 0x003⟩,
    ⟨"READ", .cmd, 10, 0x003, 0x003⟩,
    ⟨"SPBOX", .uop, 5, 0x00, 0x1f⟩,
    ⟨"SSWAP", .uop, 5, 0x01, 0x1f⟩,
    ⟨"BSWAP", .uop, 5, 0x02, 0x1f⟩,
    ⟨"ADDRC", .uop, 5, 0x03, 0x03⟩ ]

/-- A word meets a row: same format, and the bits under the mask are the match. -/
def TableRow.meets (row : TableRow) (e : Encoded) : Bool :=
  decide (row.format = e.format) && decide (e.bits &&& row.mask = row.matchBits)

/-- No word meets two rows: rows of one format differ under both masks. -/
def TableRow.disjoint (r t : TableRow) : Bool :=
  decide (r.format ≠ t.format) ||
    decide ((r.matchBits ^^^ t.matchBits) &&& (r.mask &&& t.mask) ≠ 0)

/-- The word of a table row as the number `w`: a row of up to 8 bits is a uop of 5 bits, a longer row a
command of 10 bits with a payload of zeros; a number with bits beyond the word's width is no
instruction (log entry 12). -/
def decodeTableWord (nbits w : Nat) : Option Instr :=
  if nbits ≤ 8 then
    if w < 2 ^ 5 then (decode (.uop (BitVec.ofNat 5 w))).toOption else none
  else
    if w < 2 ^ 10 then
      (decode (.cmd (BitVec.ofNat 10 w) (Vector.replicate 48 0))).toOption
    else none

end Sys2Proof
end

