-- ==== Sys2Proof/Machine/Rom.lean ====
section
/-!
DEFINITION. The contents of the two constant stores: the round constants `RC[0..5]` (10_state.md R29,
30_encoding.md R92) and the schedule ROM `ROM[0..41]` (R30, R91).
-/

namespace Sys2Proof.Machine

/-- `RC[0..5]`, in the document's order (R29, R92). -/
def roundConstants : Vector Word 6 :=
  #v[0x9e377918, 0x9e377914, 0x9e377910, 0x9e37790c, 0x9e377908, 0x9e377904]

/-- `ROM[0..41]`, slot 0 first, one big round a line (R91). -/
def scheduleRom : Vector (BitVec 5) 42 :=
  #v[0x00, 0x01, 0x03, 0x00, 0x00, 0x02, 0x00,
     0x00, 0x01, 0x07, 0x00, 0x00, 0x02, 0x00,
     0x00, 0x01, 0x0b, 0x00, 0x00, 0x02, 0x00,
     0x00, 0x01, 0x0f, 0x00, 0x00, 0x02, 0x00,
     0x00, 0x01, 0x13, 0x00, 0x00, 0x02, 0x00,
     0x00, 0x01, 0x17, 0x00, 0x00, 0x02, 0x00]

end Sys2Proof.Machine
end

