-- ==== Sys2Proof/Machine/State.lean ====
section
/-!
DEFINITION. The machine's state, as plain data: what 10_state.md gives the engine (R20 to R35), what the
host drives on the input ports from now on (R34; log entry 2), and two fields of the model's own
(log entries 5 and 6); the state after reset (R35, R240); the reasons a step can stop.
-/

namespace Sys2Proof.Machine

/-- What the host drives on the input ports in one cycle (R34). -/
structure Pins where
  rst : Bool
  cmdValid : Bool
  cmd : BitVec 10
  wdata : Bytes48
  deriving DecidableEq, Repr

/-- No reset and no command offered; `cmd` and `cmd_wdata` then have no effect (R86). -/
def Pins.idle : Pins := ⟨false, false, 0, Vector.replicate 48 0⟩

/-- A response `(err, rdata)` (R87). `rdata = none` is the spec's `-`: the bus is unspecified. -/
structure Response where
  err : Bool
  rdata : Option Bytes48
  deriving DecidableEq, Repr

/-- The state of the engine and of its ports. -/
structure State where
  /-- `A`, `B`, `C`: the 384 data bits (R20). -/
  lanes : Lanes
  /-- A `PERM` is running (R27). -/
  busy : Bool
  /-- The slot the scheduler executes next (R26). -/
  pc : BitVec 6
  /-- The response visible in the cycle that the last step began; `none` is `rsp_valid = 0` (R246). -/
  rsp : Option Response
  /-- The round-constant store (R29): read only. -/
  rc : Vector Word 6
  /-- The schedule ROM (R30): read only. -/
  rom : Vector (BitVec 5) 42
  /-- A reset edge has happened since power-on (R242); the model's own field. -/
  resetDone : Bool
  /-- What the host drives at this step and at the following ones; past its end the pins are idle. -/
  inputs : List Pins
  /-- Counts steps, for the free values of Config only; the model's own field. -/
  tick : Nat
  deriving DecidableEq, Repr

/-- The machine right after reset, with nothing offered by the host (R35, R240). -/
def State.reset : State :=
  { lanes := Lanes.zero
    busy := false
    pc := 0
    rsp := none
    rc := roundConstants
    rom := scheduleRom
    resetDone := true
    inputs := []
    tick := 0 }

/-- Why the machine stops. -/
inductive Fault where
  /-- Raised by a scheduler step whose `pc` is no slot of the ROM (42 to 63), values R26 says are never
  reached. Safe: it only stops; the hardware never meets it (log entry 10). -/
  | slotOutsideRom
  deriving DecidableEq, Repr

/-- Why a step has no meaning. -/
inductive Refusal where
  /-- Raised by `exec` for an instruction the model gives no meaning. Safe. -/
  | notModelled (mnemonic : String)
  /-- Raised by a scheduler step, or by `ADDRC` itself, for a reserved uop word, to which R90 gives no
  meaning ("refuses them"). Safe: unreachable. -/
  | reservedUop (word : BitVec 5)
  /-- Raised by a step that offers a command before the first reset edge: R242 gives it no meaning ("it
  refuses such a run"). Safe (log entry 6). -/
  | beforeFirstReset
  deriving DecidableEq, Repr

end Sys2Proof.Machine
end

