-- ==== Sys2Proof/Machine/Ops.lean ====
section
/-!
DEFINITION. The shared operations: the flat lane view and the 48-byte view of the one register file
(R9, R21, R50 to R54), the codec (R120, R121), responses (R87), the one exception (R210 to R212), reset
(R240), and the pieces of a step: which event happens (R12, R244, R245), the slot fetched and the slot
counter's advance (R176).
-/

namespace Sys2Proof.Machine

/-! ### Lanes -/

/-- Lane `j` of a word: the document's `wj` (R21). -/
def rowLane (r : Row) (j : Fin 4) : Word :=
  match j with
  | 0 => r.w0
  | 1 => r.w1
  | 2 => r.w2
  | 3 => r.w3

/-- The word whose lane `j` is `f j`. -/
def rowOf (f : Fin 4 → Word) : Row := ⟨f 0, f 1, f 2, f 3⟩

/-- `x[m]`: the flat lane view (R9, R21). -/
def laneAt (l : Lanes) (m : Fin 12) : Word :=
  match m with
  | 0 => l.A.w0
  | 1 => l.A.w1
  | 2 => l.A.w2
  | 3 => l.A.w3
  | 4 => l.B.w0
  | 5 => l.B.w1
  | 6 => l.B.w2
  | 7 => l.B.w3
  | 8 => l.C.w0
  | 9 => l.C.w1
  | 10 => l.C.w2
  | 11 => l.C.w3

/-- The lanes with `x[m] = f m` (R9). -/
def lanesOf (f : Fin 12 → Word) : Lanes :=
  ⟨⟨f 0, f 1, f 2, f 3⟩, ⟨f 4, f 5, f 6, f 7⟩, ⟨f 8, f 9, f 10, f 11⟩⟩

/-- Column `j`: `(A[j], B[j], C[j])` (R21). -/
def column (l : Lanes) (j : Fin 4) : Column := ⟨rowLane l.A j, rowLane l.B j, rowLane l.C j⟩

/-- The lanes whose column `j` is `f j`. -/
def lanesOfColumns (f : Fin 4 → Column) : Lanes :=
  ⟨rowOf fun j => (f j).a, rowOf fun j => (f j).b, rowOf fun j => (f j).c⟩

/-! ### The byte view and the codec -/

/-- The lane of four bytes, the first one least significant (R51, R120). -/
def laneOfBytes (b0 b1 b2 b3 : Byte) : Word := b3 ++ b2 ++ b1 ++ b0

/-- Byte `r` of a lane: bits `[8r+7:8r]` (R51). -/
def byteOfLane (w : Word) (r : Nat) : Byte := w.extractLsb' (8 * r) 8

/-- `byte[k]` of the 48-byte view (R51). -/
def byteAt (l : Lanes) (k : Fin 48) : Byte :=
  byteOfLane (laneAt l ⟨k.val / 4, by omega⟩) (k.val % 4)

/-- The lanes whose `byte[k]` is `f k` (R51). -/
def lanesOfBytes (f : Fin 48 → Byte) : Lanes :=
  lanesOf fun m =>
    laneOfBytes (f ⟨4 * m.val, by omega⟩) (f ⟨4 * m.val + 1, by omega⟩)
      (f ⟨4 * m.val + 2, by omega⟩) (f ⟨4 * m.val + 3, by omega⟩)

/-- `MemRead(addr, n)`; `none` where `addr + n > 48`, which R54 does not define. -/
def memRead (addr n : Nat) (l : Lanes) : Option (List Byte) :=
  if h : addr + n ≤ 48 then
    some (List.ofFn fun t : Fin n => byteAt l ⟨addr + t.val, by omega⟩)
  else none

/-- `MemWrite(addr, n, v)` with `n` the length of `v`; `none` where `addr + n > 48` (R54). -/
def memWrite (addr : Nat) (v : List Byte) (l : Lanes) : Option Lanes :=
  if addr + v.length ≤ 48 then
    some (lanesOfBytes fun k =>
      if addr ≤ k.val then (v[k.val - addr]?).getD (byteAt l k) else byteAt l k)
  else none

/-- `unpack`: 48 bytes to the twelve lanes (R120); with `pack` a bijection (R122). -/
def unpack (v : Bytes48) : Lanes := lanesOfBytes fun k => v[k]

/-- `pack`: the twelve lanes to 48 bytes (R121), the inverse of `unpack` in both directions (R122). -/
def pack (l : Lanes) : Bytes48 := Vector.ofFn fun k => byteAt l k

/-- The 384 wires that carry a 48-byte sequence: byte `k` at bits `[8k+7:8k]` (R53). -/
def toBus (v : Bytes48) : Bus :=
  BitVec.ofFnLE fun i : Fin 384 => (v[i.val / 8]'(by omega)).getLsbD (i.val % 8)

/-- The 48-byte sequence on 384 wires (R53). -/
def ofBus (b : Bus) : Bytes48 := Vector.ofFn fun k => b.extractLsb' (8 * k.val) 8

/-! ### State updates -/

/-- Replace the twelve lanes at once. -/
def setLanes (l : Lanes) (s : State) : State := { s with lanes := l }

/-- Write the two control registers, `busy` and `pc`. -/
def setSequencer (busy : Bool) (pc : BitVec 6) (s : State) : State :=
  { s with busy := busy, pc := pc }

/-- `respond(err, rdata)`: emit the one response of the current command (R10, R87). -/
def respond (err : Bool) (rdata : Option Bytes48) (s : State) : State :=
  { s with rsp := some ⟨err, rdata⟩ }

/-- `raise InvalidLength(len)`: the one exception. Nothing is written and nothing recorded; the
response is `(1, -)` (R210, R212, R218). There is no handler, so no control transfer, and no return from
it: the next command is accepted as ever (R219). `len` is notation and is not stored. -/
def raiseInvalidLength (_len : Nat) (s : State) : State := respond true none s

/-- What begins every step, whatever happens in it: the host's sample is used up and the response of
the cycle before is gone (R246: `rsp_valid` is 1 for exactly one cycle). -/
def nextCycle (s : State) : State :=
  { s with inputs := s.inputs.tail, rsp := none, tick := s.tick + 1 }

/-- The registers a reset edge writes; the constant store and the ROM are unaffected (R240). -/
def resetRegisters (s : State) : State :=
  { s with lanes := Lanes.zero, busy := false, pc := 0, rsp := none, resetDone := true }

/-- A reset edge (R240, R241). -/
def resetEdge (s : State) : State := resetRegisters (nextCycle s)

/-! ### What happens at a step -/

/-- The input ports in the cycle that this step's edge ends; idle where the host drives nothing. -/
def currentPins (s : State) : Pins := s.inputs.headD Pins.idle

/-- `cmd_ready = (NOT busy) AND (NOT rst)` (R244). -/
def cmdReady (s : State) : Bool := !s.busy && !(currentPins s).rst

/-- The engine's steps (R12), and the edges at which it does nothing or has no meaning. -/
inductive StepEvent where
  /-- `rst = 1` (R240). -/
  | reset
  /-- A command before the first reset (R242). -/
  | tooEarly
  /-- A command is accepted (R245). -/
  | accept (word : BitVec 10) (wdata : Bytes48)
  /-- One scheduler slot (R176). -/
  | slot
  /-- None of these: the engine holds its State (R226). -/
  | idle
  deriving DecidableEq, Repr

/-- Which event the state and the input ports give. Reset has priority over everything (R217); the
scheduler steps exactly when `busy = 1` (R176); a command is accepted exactly when `cmd_valid = 1` and
`cmd_ready = 1` (R245). -/
def stepEvent (s : State) : StepEvent :=
  if (currentPins s).rst then .reset
  else if !s.resetDone then
    if (currentPins s).cmdValid then .tooEarly else .idle
  else if s.busy then .slot
  else if (currentPins s).cmdValid && cmdReady s then
    .accept (currentPins s).cmd (currentPins s).wdata
  else .idle

/-- `ROM[pc]` (R176); `none` where `pc` is no slot. -/
def fetchSlot (s : State) : Option (BitVec 5) := s.rom[s.pc.toNat]?

/-- The slot counter's part of a scheduler step: after slot 41 back to idle with the response of the
`PERM`, else on to the next slot (R26, R176). -/
def advanceSlot (s : State) : State :=
  if s.pc = 41 then respond false none (setSequencer false 0 s)
  else setSequencer s.busy (s.pc + 1) s

/-- Apply `f` to a next state; a fault or a refusal stays as it is. -/
def onNext (f : State → State) :
    Host.Outcome State Fault Refusal → Host.Outcome State Fault Refusal
  | .next s => .next (f s)
  | .fault r => .fault r
  | .refused r => .refused r

/-! ### Placing an instruction where the next step finds it (log entry 3) -/

/-- The host offers this command at the next step, to an engine that can accept it. -/
def placeCommand (word : BitVec 10) (wdata : Bytes48) (s : State) : State :=
  { s with
    busy := false
    resetDone := true
    inputs := ⟨false, true, word, wdata⟩ :: s.inputs.tail }

/-- The scheduler is running and its slot holds this word; `pc` moves only if it is no slot. -/
def placeUop (word : BitVec 5) (s : State) : State :=
  let slot : BitVec 6 := if s.pc.toNat < 42 then s.pc else 0
  { s with
    busy := true
    resetDone := true
    pc := slot
    rom := s.rom.setIfInBounds slot.toNat word
    inputs := if (currentPins s).rst then Pins.idle :: s.inputs.tail else s.inputs }

end Sys2Proof.Machine
end

