-- ==== Sys2Proof/Machine/Flags.lean ====
section
/-!
DEFINITION. The engine has no status flag and no condition code, and no operation writes one (R28). The
one indication it gives is the field `rsp_err` of a response, which is not stored (R28, R87, R210).
-/

namespace Sys2Proof.Machine

/-- The cause code of a response: 1 is `InvalidLength`, 0 means no exception (R87, R210). -/
def Response.causeCode (r : Response) : Nat := if r.err then 1 else 0

/-- The response reports `InvalidLength` (R210). -/
def Response.isInvalidLength (r : Response) : Bool := r.causeCode == 1

end Sys2Proof.Machine
end

