-- ==== Sys2Proof/Machine/Operands.lean ====
section
/-!
DEFINITION. The operands an instruction can have: the length of a `LOAD` (R84) and the round constant of
an `ADDRC` (R93). There is no register operand, no address operand and no addressing mode (R81, R128).
-/

namespace Sys2Proof.Machine

/-- The length a `LOAD` must state (R5, R84). -/
def requiredLength : Nat := 48

/-- `len = zext(cmd[9:2])`: unsigned, 0 to 255, not scaled (R84). -/
def lengthOperand (len : BitVec 8) : Nat := len.toNat

/-- The `LOAD` succeeds: all 8 bits of `len` say 48 (R84, R211). -/
def lengthValid (len : BitVec 8) : Bool := lengthOperand len == requiredLength

/-- `RC[idx]` from the constant store (R93); `none` for 6 and 7, which are reserved (R90). -/
def roundConstant (idx : BitVec 3) (s : State) : Option Word := s.rc[idx.toNat]?

end Sys2Proof.Machine
end

