-- ==== Sys2Proof/Machine/Codec.lean ====
section
/-!
DEFINITION. The data-movement commands `CLR`, `LOAD`, `READ` (40_codec_commands.md R125 to R127): each
one step, its response included (R246).
-/

namespace Sys2Proof.Machine

/-- `CLR`: the zero-initialized State; `len` and the payload are ignored (R125). -/
def execClr (_len : BitVec 8) (_wdata : Bytes48) (s : State) : Host.Outcome State Fault Refusal :=
  .next (respond false none (setLanes Lanes.zero s))

/-- `LOAD`: the State from the host's 48 bytes, or `InvalidLength` with nothing written (R126). -/
def execLoad (len : BitVec 8) (wdata : Bytes48) (s : State) : Host.Outcome State Fault Refusal :=
  if lengthValid len then .next (respond false none (setLanes (unpack wdata) s))
  else .next (raiseInvalidLength (lengthOperand len) s)

/-- `READ`: answer the 48 bytes, write no register; `len` and the payload are ignored (R127). -/
def execRead (_len : BitVec 8) (_wdata : Bytes48) (s : State) : Host.Outcome State Fault Refusal :=
  .next (respond false (some (pack s.lanes)) s)

end Sys2Proof.Machine
end

