-- ==== Sys2Proof/Machine/Scheduler.lean ====
section
/-!
DEFINITION. The micro-operations on word `A` (42_scheduler.md R170 to R172) and the command `PERM`
(R177). A uop's meaning is its effect on the lanes; the slot counter's advance is the step's (R176).
-/

namespace Sys2Proof.Machine

/-- `[w0, w1, w2, w3]` to `[w1, w0, w3, w2]` (R170). -/
def smallSwap (r : Row) : Row := ⟨r.w1, r.w0, r.w3, r.w2⟩

/-- `[w0, w1, w2, w3]` to `[w2, w3, w0, w1]` (R172). -/
def bigSwap (r : Row) : Row := ⟨r.w2, r.w3, r.w0, r.w1⟩

/-- XOR a round constant into lane 0 (R171). -/
def injectConstant (k : Word) (r : Row) : Row := { r with w0 := r.w0 ^^^ k }

/-- Change word `A` only. -/
def onA (f : Row → Row) (l : Lanes) : Lanes := { l with A := f l.A }

/-- `SSWAP`: the small swap (R170). -/
def execSswap (s : State) : Host.Outcome State Fault Refusal :=
  .next (setLanes (onA smallSwap s.lanes) s)

/-- `BSWAP`: the big swap (R172). -/
def execBswap (s : State) : Host.Outcome State Fault Refusal :=
  .next (setLanes (onA bigSwap s.lanes) s)

/-- `ADDRC i`: the round-constant injection (R171); `ADDRC 6` and `ADDRC 7` are reserved (R90). -/
def execAddrc (idx : BitVec 3) (s : State) : Host.Outcome State Fault Refusal :=
  match roundConstant idx s with
  | some k => .next (setLanes (onA (injectConstant k) s.lanes) s)
  | none => .refused (.reservedUop (uopWord idx 0b11))

/-- `PERM`: start the scheduler at slot 0; no lane changes and no response yet (R177). -/
def execPerm (_len : BitVec 8) (_wdata : Bytes48) (s : State) : Host.Outcome State Fault Refusal :=
  .next (setSequencer true 0 s)

end Sys2Proof.Machine
end

