-- ==== Sys2Proof/Machine/SpBox.lean ====
section
/-!
DEFINITION. The nonlinear mixing step (41_spbox.md R150 to R158) and the micro-operation `SPBOX`.
-/

namespace Sys2Proof.Machine

/-- `shl32(v, n)`: logical left shift, bits shifted out at bit 31 discarded (R151). -/
def shl32 (v : Word) (n : Nat) : Word := v <<< n

/-- `rotl32(v, n) = (v << n) | (v >> (32 - n))` (R150; used with 24 and 9 only, log entry 15). -/
def rotl32 (v : Word) (n : Nat) : Word := shl32 v n ||| (v >>> (32 - n))

/-- The lane function `sp`: all three outputs from the same `x`, `y`, `z` (R153). -/
def sp (col : Column) : Column :=
  let x := rotl32 col.a 24
  let y := rotl32 col.b 9
  let z := col.c
  { c := x ^^^ shl32 z 1 ^^^ shl32 (y &&& z) 2
    b := y ^^^ x ^^^ shl32 (x ||| z) 1
    a := z ^^^ y ^^^ shl32 (x &&& y) 3 }

/-- One mixing step: `sp` on the four columns, all read before any is written (R154 to R156). -/
def mixLanes (l : Lanes) : Lanes := lanesOfColumns fun j => sp (column l j)

/-- `SPBOX` (R154). -/
def execSpbox (s : State) : Host.Outcome State Fault Refusal :=
  .next (setLanes (mixLanes s.lanes) s)

end Sys2Proof.Machine
end

