-- ==== Sys2Proof/Machine/Dispatch.lean ====
section
/-!
DEFINITION. The meaning of every instruction, one arm per constructor.
-/

namespace Sys2Proof.Machine

def exec (i : Instr) (s : State) : Host.Outcome State Fault Refusal :=
  match i with
  | .clr len wdata => Sys2Proof.Machine.execClr len wdata s
  | .load len wdata => Sys2Proof.Machine.execLoad len wdata s
  | .perm len wdata => Sys2Proof.Machine.execPerm len wdata s
  | .read len wdata => Sys2Proof.Machine.execRead len wdata s
  | .spbox => Sys2Proof.Machine.execSpbox s
  | .sswap => Sys2Proof.Machine.execSswap s
  | .bswap => Sys2Proof.Machine.execBswap s
  | .addrc idx => Sys2Proof.Machine.execAddrc idx s

end Sys2Proof.Machine
end

