-- ==== Sys2Proof/Machine/Step.lean ====
section
/-!
DEFINITION. One step of the engine (R12, R176, R217, R240, R245): reset, the acceptance of a command, one
scheduler slot, or nothing. A command comes from the input ports, a uop from `ROM[pc]`.
-/

namespace Sys2Proof.Machine

/-- Run one decoded instruction and then do what the scheduler adds after it (nothing for a command). -/
def runDecoded (d : Except DecodeError Instr) (after : State → State) (s : State) :
    Host.Outcome State Fault Refusal :=
  match d with
  | .ok i => onNext after (exec i s)
  | .error (.reservedUop word) => .refused (.reservedUop word)

/-- One scheduler step: fetch `ROM[pc]`, run it, advance the slot counter (R176). -/
def schedulerStep (s : State) : Host.Outcome State Fault Refusal :=
  match fetchSlot s with
  | some word => runDecoded (decode (.uop word)) advanceSlot (nextCycle s)
  | none => .fault .slotOutsideRom

/-- One step. -/
def step (s : State) : Host.Outcome State Fault Refusal :=
  match stepEvent s with
  | .reset => .next (resetEdge s)
  | .tooEarly => .refused .beforeFirstReset
  | .accept word wdata => runDecoded (decode (.cmd word wdata)) id (nextCycle s)
  | .slot => schedulerStep s
  | .idle => .next (nextCycle s)

/-- `s` with an instruction of the opcode table where the next step finds it: a command (a row longer
than 8 bits) offered on the ports with a payload of zeros, a uop in the slot at `pc` of a running
scheduler (log entries 3 and 12). -/
def State.withFetchWord (s : State) (nbits w : Nat) : State :=
  if nbits ≤ 8 then placeUop (BitVec.ofNat 5 w) s
  else placeCommand (BitVec.ofNat 10 w) (Vector.replicate 48 0) s

end Sys2Proof.Machine
end

