-- ==== Sys2Proof/Machine/Permutation.lean ====
section
/-!
DEFINITION. The permutation as functions on lanes and on bytes (42_scheduler.md R173, R174;
40_codec_commands.md R124), for comparison with what the scheduler's 42 slots compute (R179).
-/

namespace Sys2Proof.Machine

/-- Big round `i`: the seven uops in the document's order (R173). -/
def bigRound (i : Fin 6) (l : Lanes) : Lanes :=
  mixLanes (onA bigSwap (mixLanes (mixLanes
    (onA (injectConstant roundConstants[i]) (onA smallSwap (mixLanes l))))))

/-- `P = BR_5 after ... after BR_0` (R174). -/
def permuteLanes (l : Lanes) : Lanes :=
  bigRound 5 (bigRound 4 (bigRound 3 (bigRound 2 (bigRound 1 (bigRound 0 l)))))

/-- `permute(bytes) = pack(P(unpack(bytes)))` (R124, R174). -/
def permuteBytes (v : Bytes48) : Bytes48 := pack (permuteLanes (unpack v))

/-- `P` applied `k` times (R181). -/
def permuteTimes : Nat → Lanes → Lanes
  | 0, l => l
  | k + 1, l => permuteTimes k (permuteLanes l)

end Sys2Proof.Machine
end

