-- ==== Sys2Proof/Machine/Ports.lean ====
section
/-!
DEFINITION. The output ports (10_state.md R34; R87, R244, R246, R248): what stands on them in the cycle
after a step, given what the host drives in that cycle. Where the spec leaves a port unspecified, the
free values of Config stand there (log entry 5).
-/

namespace Sys2Proof.Machine

/-- The output ports (R34); `rsp_rdata` as its 48 bytes, `toBus` gives the wires (R53). -/
structure OutPins where
  cmdReady : Bool
  rspValid : Bool
  rspErr : Bool
  rspRdata : Bytes48
  deriving DecidableEq, Repr

/-- What an unspecified port may depend on: the lanes, but nothing of them while `busy = 1` (R180,
R248). -/
def portSight (s : State) : Option Bytes48 := if s.busy then none else some (pack s.lanes)

/-- `cmd_ready` (R244); its `busy` part is unspecified before the first reset (R242). -/
def outCmdReady (s : State) : Bool :=
  if s.resetDone then cmdReady s
  else Config.unspecReady s.tick (portSight s) && !(currentPins s).rst

/-- `rsp_valid` (R246). -/
def outRspValid (s : State) : Bool :=
  if s.resetDone then s.rsp.isSome else Config.unspecValid s.tick (portSight s)

/-- `rsp_err` (R87), meaningful only with `rsp_valid` (R248). -/
def outRspErr (s : State) : Bool :=
  match s.resetDone, s.rsp with
  | true, some r => r.err
  | _, _ => Config.unspecErr s.tick (portSight s)

/-- `rsp_rdata` (R87), meaningful only in the response of a `READ` (R248). -/
def outRspRdata (s : State) : Bytes48 :=
  match s.resetDone, s.rsp with
  | true, some ⟨_, some v⟩ => v
  | _, _ => Config.unspecRdata s.tick (portSight s)

/-- All output ports. -/
def outPins (s : State) : OutPins :=
  ⟨outCmdReady s, outRspValid s, outRspErr s, outRspRdata s⟩

/-- `cmd_wdata[383:0]`, the wires of a sample's payload (R34, R53). -/
def cmdWdataWires (p : Pins) : Bus := toBus p.wdata

/-- `rsp_rdata[383:0]`, the wires of the answered bytes (R34, R53). -/
def rspRdataWires (o : OutPins) : Bus := toBus o.rspRdata

end Sys2Proof.Machine
end

