-- ==== Sys2Proof/Machine/Script.lean ====
section
/-!
DEFINITION. Command scripts (30_encoding.md R95, R97): what the host drives for each line, the
pseudo-instructions, and the responses of a run (R251). A host waits for `cmd_ready` before its next
line (R245, R247): after a `PERM` it drives idle pins for the 42 slots, also before a `RESET` line (log
entries 19, 24). What R95 leaves open on the ports is the model's choice (log entries 21 to 23).
-/

namespace Sys2Proof.Machine

/-- A line of a command script (R95); `loadNone n` is `LOAD n` with no bytes, for which the assembler
drives zeros. R95 calls that form "only meaningful for `n != 48`"; that `loadNone 48` is a line all the
same is the model's choice (DESIGN CHOICE, unsafe: log entry 21). -/
inductive ScriptLine where
  | clr
  | load (n : BitVec 8) (bytes : Bytes48)
  | loadNone (n : BitVec 8)
  | perm
  | read
  | reset
  deriving DecidableEq, Repr

/-- A pseudo-instruction (R97). -/
inductive PseudoLine where
  | load48 (bytes : Bytes48)
  | permN (k : Nat)
  | zero
  deriving DecidableEq, Repr

/-- The expansion of a pseudo-instruction (R97). -/
def expandPseudo : PseudoLine → List ScriptLine
  | .load48 bytes => [.load 48 bytes]
  | .permN k => List.replicate k .perm
  | .zero => [.clr]

/-- The instruction a line assembles to (R95): `len = 0` but for `LOAD`; `RESET` is no command. For `CLR`,
`PERM` and `READ` R95 calls the payload "ignored" and names no value: that 48 zero bytes are driven is the
model's choice (DESIGN CHOICE, safe: log entry 22). For `loadNone 48`, to which R95 gives no meaning, it
is a `LOAD` of 48 whose payload is the zeros driven, so the line succeeds and zeroes the State (DESIGN
CHOICE, unsafe: log entry 21). -/
def lineInstr : ScriptLine → Option Instr
  | .clr => some (.clr 0 (Vector.replicate 48 0))
  | .load n bytes => some (.load n bytes)
  | .loadNone n => some (.load n (Vector.replicate 48 0))
  | .perm => some (.perm 0 (Vector.replicate 48 0))
  | .read => some (.read 0 (Vector.replicate 48 0))
  | .reset => none

/-- The pins with which a host offers an encoded command; a uop cannot be offered (R80). -/
def offer : Encoded → Pins
  | .cmd word wdata => ⟨false, true, word, wdata⟩
  | .uop _ => Pins.idle

/-- The pins of the edge that a line stands for (R95). For `RESET` the spec gives `rst = 1` only, with
`cmd_valid` at any value (R243): that `cmd_valid`, `cmd` and `cmd_wdata` are 0 then is the model's choice
(DESIGN CHOICE, safe for what the engine does, unsafe for a claim about these pins: log entry 23). -/
def linePins (line : ScriptLine) : Pins :=
  match lineInstr line with
  | some i => offer (encode i)
  | none => { Pins.idle with rst := true }

/-- What the host drives for a line, up to the step before its next line is driven. The spec does not say
how long a host waits (R251), and a `RESET` may be asserted at any edge while `busy = 1`
(95_test_vectors.md P5): that every line after a `PERM`, a `RESET` too, comes after its 42 slots, so that
the `PERM` completes, and every other line at the next step, is the model's choice (DESIGN CHOICE,
unsafe: log entries 19 and 24). -/
def lineSamples (line : ScriptLine) : List Pins :=
  linePins line :: (if line = .perm then List.replicate 42 Pins.idle else [])

/-- What the host drives for a whole script. -/
def scriptSamples (lines : List ScriptLine) : List Pins := lines.flatMap lineSamples

/-- The responses of up to `n` steps, in order: the observable result of a run (R251). -/
def responses : Nat → State → List Response
  | 0, _ => []
  | n + 1, s =>
    match step s with
    | .next t => t.rsp.toList ++ responses n t
    | .fault _ => []
    | .refused _ => []

end Sys2Proof.Machine
end

