-- ==== Sys2Proof/Safety.lean ====
section
/-!
DEFINITION. What counts as a safe run: the invariant of every state a run from reset reaches, and what
it means that a step cannot stop. Also the control view of a state, for the claims that nothing of the
sequencing depends on data (R182, R253).
-/

namespace Sys2Proof.Machine

/-- The legal states: the engine was reset (R242); the stores hold the spec's constants (R29, R30);
`pc` is a slot while a `PERM` runs and 0 while idle (R26, R125); no response is visible while a `PERM`
runs (R246); data stands only in an OK response (R87). -/
structure State.Inv (s : State) : Prop where
  resetDone : s.resetDone = true
  rom : s.rom = scheduleRom
  rc : s.rc = roundConstants
  pcBusy : s.busy = true → s.pc.toNat < 42
  pcIdle : s.busy = false → s.pc = 0
  rspBusy : s.busy = true → s.rsp = none
  rspData : ∀ r, s.rsp = some r → r.err = true → r.rdata = none

/-- The step answers a next state: neither a fault nor a refusal. -/
def CanStep (s : State) : Prop := ∃ t, step s = .next t

/-- What no instruction writes: the constant stores (R29, R30), and the host's side of the state. -/
structure KeepsStoresAndHost (s t : State) : Prop where
  rc : t.rc = s.rc
  rom : t.rom = s.rom
  resetDone : t.resetDone = s.resetDone
  inputs : t.inputs = s.inputs
  tick : t.tick = s.tick

/-- What no micro-operation writes (R23): only the lanes may differ. -/
structure KeepsAllButLanes (s t : State) : Prop extends KeepsStoresAndHost s t where
  busy : t.busy = s.busy
  pc : t.pc = s.pc
  rsp : t.rsp = s.rsp

/-- No byte of the 48-byte view differs, and no lane. -/
structure KeepsMemory (s t : State) : Prop where
  lanes : t.lanes = s.lanes
  bytes : ∀ k, byteAt t.lanes k = byteAt s.lanes k

/-- The engine will accept the next command: reset, idle, and no reset edge now (R245). -/
structure Ready (s : State) : Prop where
  resetDone : s.resetDone = true
  idle : s.busy = false
  noReset : (currentPins s).rst = false

/-- A command with this operation is accepted only by an idle engine, whose `pc` is then 0 (R125 to R127,
R177, R245). -/
def AcceptedOnlyWhenIdle (op : BitVec 2) : Prop :=
  ∀ (s : State) (word : BitVec 10) (d : Bytes48), s.Inv → stepEvent s = .accept word d →
    cmdOp word = op → s.busy = false ∧ s.pc = 0

/-- What a host could use for timing and control, with every data value left out: the payloads, the
lanes, and the data of a `READ` response (R182). -/
structure ControlView where
  busy : Bool
  pc : BitVec 6
  /-- `none`: no response; otherwise its `err` and whether it carries data. -/
  rsp : Option (Bool × Bool)
  resetDone : Bool
  /-- `rst`, `cmd_valid` and `cmd` of every sample. -/
  inputs : List (Bool × Bool × BitVec 10)
  deriving DecidableEq, Repr

/-- The control view of a state. -/
def controlView (s : State) : ControlView :=
  { busy := s.busy
    pc := s.pc
    rsp := s.rsp.map fun r => (r.err, r.rdata.isSome)
    resetDone := s.resetDone
    inputs := s.inputs.map fun p => (p.rst, p.cmdValid, p.cmd) }

end Sys2Proof.Machine
end

