-- ==== Sys2Proof/Certificates/Slice0/Obligations.lean ====
section
/-!
DEFINITION. The statements about the model, for the provers. Each docstring says which rule of spec/ the
statement formalises.
-/

open Sys2Proof Sys2Proof.Machine

/-! ### Encoding -/

/-- R81, R82, R88 to R90: the encoder loses no bit and the decoder reads every field back, for every
instruction and every value of its operands. -/
def Obligations.DecodeInvertsEncode : Prop :=
  ∀ i : Instr, i.wf = true → decode (encode i) = .ok i

/-- R81, R82, R88 to R90: a word that decodes at all decodes to a well-formed instruction of its own
format whose encoding is that word. -/
def Obligations.EncodeInvertsDecode : Prop :=
  ∀ (e : Encoded) (i : Instr), decode e = .ok i →
    encode i = e ∧ i.wf = true ∧ i.format = e.format

/-- R82, R89, R91, R95: words written out in the spec decode to what they stand for. -/
def Obligations.SpecWordsDecode : Prop :=
  ∀ d : Bytes48,
    decode (.cmd 0x000 d) = .ok (.clr 0 d) ∧
    decode (.cmd 0x0c1 d) = .ok (.load 48 d) ∧
    decode (.cmd 0x0bd d) = .ok (.load 47 d) ∧
    decode (.cmd 0x3fd d) = .ok (.load 255 d) ∧
    decode (.cmd 0x0c6 d) = .ok (.perm 49 d) ∧
    decode (.cmd 0x3ff d) = .ok (.read 255 d) ∧
    decode (.uop 0x00) = .ok .spbox ∧
    decode (.uop 0x01) = .ok .sswap ∧
    decode (.uop 0x02) = .ok .bswap ∧
    decode (.uop 0x03) = .ok (.addrc 0) ∧
    decode (.uop 0x17) = .ok (.addrc 5)

/-- R83, R85: every command word is a command. `CLR`, `PERM` and `READ` ignore `len` and the payload; a
`LOAD` with `len ≠ 48` ignores the payload; every `len` is legal for `LOAD`, and all but 48 end in
`InvalidLength`; the assembler emits `len = 0` where it is ignored. -/
def Obligations.EveryCommandWordIsLegal : Prop :=
  (∀ word d, ∃ i, decode (.cmd word d) = .ok i ∧ i.format = .cmd ∧ i.wf = true) ∧
  (∀ len len' d d' s,
    exec (.clr len d) s = exec (.clr len' d') s ∧
    exec (.perm len d) s = exec (.perm len' d') s ∧
    exec (.read len d) s = exec (.read len' d') s) ∧
  (∀ len d d' s, len ≠ 48 → exec (.load len d) s = exec (.load len d') s) ∧
  (∀ len d s, ∃ t, exec (.load len d) s = .next t ∧
    (t.rsp = some ⟨true, none⟩ ↔ len ≠ 48)) ∧
  (∀ line len d, lineInstr line = some (.clr len d) ∨ lineInstr line = some (.perm len d) ∨
    lineInstr line = some (.read len d) → len = 0)

/-- R90: exactly the words listed there are reserved; none is in the schedule ROM, no step writes the
ROM, no word on the command port is a uop, and no step from a legal state meets a reserved word. -/
def Obligations.ReservedUopWordsAreUnreachable : Prop :=
  let reserved : List (BitVec 5) :=
    [0x04, 0x05, 0x06, 0x08, 0x09, 0x0a, 0x0c, 0x0d, 0x0e, 0x10, 0x11, 0x12, 0x14, 0x15, 0x16,
     0x18, 0x19, 0x1a, 0x1c, 0x1d, 0x1e, 0x1b, 0x1f]
  (∀ word, decode (.uop word) = .error (.reservedUop word) ↔ word ∈ reserved) ∧
  (∀ word ∈ scheduleRom.toList, word ∉ reserved) ∧
  (∀ s t, step s = .next t → t.rom = s.rom) ∧
  (∀ word d i, decode (.cmd word d) = .ok i → i.format = .cmd) ∧
  (∀ s word, s.Inv → step s ≠ .refused (.reservedUop word))

/-- R91: slot `7 i + q` of the schedule ROM holds the seven uops of big round `i` in the document's
order. -/
def Obligations.ScheduleRomHoldsSixBigRounds : Prop :=
  ∀ i : Fin 6,
    State.reset.rom[7 * i.val]? = some 0x00 ∧
    State.reset.rom[7 * i.val + 1]? = some 0x01 ∧
    State.reset.rom[7 * i.val + 2]? = some (uopWord (BitVec.ofNat 3 i.val) 0b11) ∧
    State.reset.rom[7 * i.val + 3]? = some 0x00 ∧
    State.reset.rom[7 * i.val + 4]? = some 0x00 ∧
    State.reset.rom[7 * i.val + 5]? = some 0x02 ∧
    State.reset.rom[7 * i.val + 6]? = some 0x00

/-- R29, R92: the six round constants, and the formula they agree with. -/
def Obligations.RoundConstantsMatchTheFormula : Prop :=
  State.reset.rc.toList =
    [0x9e377918, 0x9e377914, 0x9e377910, 0x9e37790c, 0x9e377908, 0x9e377904] ∧
  (∀ i : Fin 6, State.reset.rc[i] = 0x9e377900 ^^^ BitVec.ofNat 32 (24 - 4 * i.val)) ∧
  (∀ s t, step s = .next t → t.rc = s.rc)

/-- R175: a `PERM` runs 24 `SPBOX`, 6 `SSWAP`, 6 `BSWAP` and 6 `ADDRC`, 42 uops in all. -/
def Obligations.ScheduleUopCounts : Prop :=
  scheduleRom.toList.length = 42 ∧
  scheduleRom.toList.count 0x00 = 24 ∧
  scheduleRom.toList.count 0x01 = 6 ∧
  scheduleRom.toList.count 0x02 = 6 ∧
  scheduleRom.toList.countP (fun word => uopKind word == 0b11) = 6

/-- R95: the command words the assembler emits, the payload of `LOAD`, and that `RESET` drives `rst = 1`.
Two things are the model's choice, not R95's: the two `loadNone` clauses at `n = 48`, since R95 gives
`LOAD n` without bytes a meaning for `n ≠ 48` only (log entry 21); and, in the last clause, that
`cmd_valid = 0` at the edge of a `RESET` line, where the spec allows any value (log entry 23). -/
def Obligations.ScriptLinesAssemble : Prop :=
  ∀ (n : BitVec 8) (d : Bytes48),
    (linePins .clr).cmd = 0x000 ∧ (linePins .perm).cmd = 0x002 ∧ (linePins .read).cmd = 0x003 ∧
    (linePins (.load n d)).cmd.toNat = n.toNat * 4 + 1 ∧ (linePins (.load n d)).wdata = d ∧
    (linePins (.loadNone n)).cmd.toNat = n.toNat * 4 + 1 ∧
    (linePins (.loadNone n)).wdata = Vector.replicate 48 0 ∧
    (∀ line, (linePins line).rst = decide (line = .reset)) ∧
    (∀ line, (linePins line).cmdValid = decide (line ≠ .reset))

/-! ### The byte view, the codec and the memory primitives -/

/-- R51: `byte[k]` is bits `[8r+7:8r]` of lane `m`, and a lane is the sum of its four bytes, the first
least significant. -/
def Obligations.ByteViewIsLittleEndian : Prop :=
  ∀ l : Lanes,
    (∀ k : Fin 48,
      byteAt l k = (laneAt l ⟨k.val / 4, by omega⟩).extractLsb' (8 * (k.val % 4)) 8) ∧
    (∀ m : Fin 12, (laneAt l m).toNat =
      (byteAt l ⟨4 * m.val, by omega⟩).toNat + 2 ^ 8 * (byteAt l ⟨4 * m.val + 1, by omega⟩).toNat +
        2 ^ 16 * (byteAt l ⟨4 * m.val + 2, by omega⟩).toNat +
        2 ^ 24 * (byteAt l ⟨4 * m.val + 3, by omega⟩).toNat) ∧
    (∀ j : Fin 4, laneAt l ⟨j.val, by omega⟩ = rowLane l.A j ∧
      laneAt l ⟨4 + j.val, by omega⟩ = rowLane l.B j ∧
      laneAt l ⟨8 + j.val, by omega⟩ = rowLane l.C j)

/-- R120: `unpack` reads each 16-byte chunk as four little-endian lanes; it is `MemWrite(0, 48, v)`; and
lane `m` is bits `[32m+31:32m]` of the bus. -/
def Obligations.UnpackReadsLittleEndianLanes : Prop :=
  ∀ v : Bytes48,
    (∀ j : Fin 4,
      (rowLane (unpack v).A j).toNat =
        v[4 * j.val].toNat + 2 ^ 8 * v[4 * j.val + 1].toNat + 2 ^ 16 * v[4 * j.val + 2].toNat +
          2 ^ 24 * v[4 * j.val + 3].toNat ∧
      (rowLane (unpack v).B j).toNat =
        v[16 + 4 * j.val].toNat + 2 ^ 8 * v[16 + 4 * j.val + 1].toNat +
          2 ^ 16 * v[16 + 4 * j.val + 2].toNat + 2 ^ 24 * v[16 + 4 * j.val + 3].toNat ∧
      (rowLane (unpack v).C j).toNat =
        v[32 + 4 * j.val].toNat + 2 ^ 8 * v[32 + 4 * j.val + 1].toNat +
          2 ^ 16 * v[32 + 4 * j.val + 2].toNat + 2 ^ 24 * v[32 + 4 * j.val + 3].toNat) ∧
    (∀ l, memWrite 0 v.toList l = some (unpack v)) ∧
    (∀ m : Fin 12, laneAt (unpack v) m = (toBus v).extractLsb' (32 * m.val) 32)

/-- R121, R122: byte `4m + r` of `pack` is bits `[8r+7:8r]` of lane `m`; it is `MemRead(0, 48)`; `pack`
and `unpack` are inverse in both directions. -/
def Obligations.PackAndUnpackAreInverse : Prop :=
  (∀ (l : Lanes) (m : Fin 12) (r : Fin 4),
    (pack l)[4 * m.val + r.val] = (laneAt l m).extractLsb' (8 * r.val) 8) ∧
  (∀ l, memRead 0 48 l = some (pack l).toList) ∧
  (∀ v, pack (unpack v) = v) ∧
  (∀ l, unpack (pack l) = l)

/-- R53: on a bus byte `k` is at bits `[8k+7:8k]` and lane `m` at bits `[32m+31:32m]`; bytes and wires
carry the same. -/
def Obligations.BusCarriesByteKAtBitEightK : Prop :=
  (∀ (v : Bytes48) (k : Fin 48), (toBus v).extractLsb' (8 * k.val) 8 = v[k]) ∧
  (∀ (l : Lanes) (m : Fin 12), (toBus (pack l)).extractLsb' (32 * m.val) 32 = laneAt l m) ∧
  (∀ v, ofBus (toBus v) = v) ∧
  (∀ b, toBus (ofBus b) = b)

/-- What R54 says `MemRead` and `MemWrite` do to every byte inside the view, and that over the whole view
they are `pack` and `unpack`. Beyond the view both answer `none`: R54 defines neither there, and `none`
is the model's inference (log entry 8, DEDUCED), not the rule's. The commands' own statements say which
of the two each command uses. -/
def Obligations.MemoryPrimitivesReadAndWriteBytes : Prop :=
  (∀ (l : Lanes) (addr n : Nat), addr + n ≤ 48 →
    ∃ bytes, memRead addr n l = some bytes ∧ bytes.length = n ∧
      ∀ (t : Nat) (k : Fin 48), t < n → k.val = addr + t → bytes[t]? = some (byteAt l k)) ∧
  (∀ (l : Lanes) (addr : Nat) (v : List Byte), addr + v.length ≤ 48 →
    ∃ l', memWrite addr v l = some l' ∧
      (∀ (t : Nat) (k : Fin 48), t < v.length → k.val = addr + t →
        some (byteAt l' k) = v[t]?) ∧
      (∀ k : Fin 48, k.val < addr ∨ addr + v.length ≤ k.val → byteAt l' k = byteAt l k)) ∧
  (∀ (l : Lanes) (addr n : Nat), 48 < addr + n → memRead addr n l = none) ∧
  (∀ (l : Lanes) (addr : Nat) (v : List Byte), 48 < addr + v.length → memWrite addr v l = none) ∧
  (∀ l, memRead 0 48 l = some (pack l).toList) ∧
  (∀ (l : Lanes) (v : Bytes48), memWrite 0 v.toList l = some (unpack v))

/-! ### The commands -/

/-- R125 and its frame: `CLR` answers OK with every lane and byte zero, as after reset; `busy`, `pc` and
all else are kept; a `READ` then answers 48 bytes `00`. It is `op = 0b00`, accepted only while idle. -/
def Obligations.ClrZeroesTheState : Prop :=
  (∀ len d s, ∃ t, exec (.clr len d) s = .next t ∧
    (∀ m, laneAt t.lanes m = 0) ∧ (∀ k, byteAt t.lanes k = 0) ∧
    t.lanes = State.reset.lanes ∧ t.rsp = some ⟨false, none⟩ ∧
    t.busy = s.busy ∧ t.pc = s.pc ∧ KeepsStoresAndHost s t ∧
    ∃ u, exec (.read 0 d) t = .next u ∧ u.rsp = some ⟨false, some (Vector.replicate 48 0)⟩) ∧
  (∀ len d, decode (.cmd (cmdWord len 0b00) d) = .ok (.clr len d)) ∧
  AcceptedOnlyWhenIdle 0b00

/-- R126 and its frame: a `LOAD` of 48 stores the payload at bytes 0 to 47, all of the view, and answers
OK, and a `READ` then answers the payload; any other length writes no byte and answers `InvalidLength`;
`busy`, `pc` and all else are kept. It is `op = 0b01`, accepted only while idle. -/
def Obligations.LoadStoresFortyEightBytesOrNone : Prop :=
  (∀ (len : BitVec 8) (d : Bytes48) (s : State), ∃ t, exec (.load len d) s = .next t ∧
    (if len.toNat = 48 then
      memWrite 0 d.toList s.lanes = some t.lanes ∧ t.lanes = unpack d ∧
        (∀ k : Fin 48, byteAt t.lanes k = d[k]) ∧ t.rsp = some ⟨false, none⟩ ∧
        ∃ u, exec (.read 0 d) t = .next u ∧ u.rsp = some ⟨false, some d⟩
    else KeepsMemory s t ∧ t.rsp = some ⟨true, none⟩) ∧
    t.busy = s.busy ∧ t.pc = s.pc ∧ KeepsStoresAndHost s t) ∧
  (∀ len d, decode (.cmd (cmdWord len 0b01) d) = .ok (.load len d)) ∧
  AcceptedOnlyWhenIdle 0b01

/-- R127 and its frame: `READ` answers the 48 bytes of the view and changes nothing else; directly after
reset it answers 48 bytes `00`. It is `op = 0b11`, accepted only while idle. -/
def Obligations.ReadAnswersTheByteView : Prop :=
  (∀ len d s, ∃ t v, exec (.read len d) s = .next t ∧
    t.rsp = some ⟨false, some v⟩ ∧ (∀ k : Fin 48, v[k] = byteAt s.lanes k) ∧
    memRead 0 48 s.lanes = some v.toList ∧ (s.lanes = State.reset.lanes → v = Vector.replicate 48 0) ∧
    KeepsMemory s t ∧ t.busy = s.busy ∧ t.pc = s.pc ∧ KeepsStoresAndHost s t) ∧
  (∀ len d, decode (.cmd (cmdWord len 0b11) d) = .ok (.read len d)) ∧
  AcceptedOnlyWhenIdle 0b11

/-- R177 and its frame: the acceptance of a `PERM` sets `busy` and starts at slot 0; no lane changes and
there is no response yet. It is `op = 0b10`, accepted only while idle. -/
def Obligations.PermStartsTheScheduler : Prop :=
  (∀ len d s, ∃ t, exec (.perm len d) s = .next t ∧
    t.busy = true ∧ t.pc = 0 ∧ t.rsp = s.rsp ∧ KeepsMemory s t ∧ KeepsStoresAndHost s t) ∧
  (∀ len d, decode (.cmd (cmdWord len 0b10) d) = .ok (.perm len d)) ∧
  AcceptedOnlyWhenIdle 0b10

/-- R57: two `READ`s answer the same and change nothing; `LOAD` of the same bytes twice, and `CLR` twice,
leave the same State as once; `PERM` is not idempotent. -/
def Obligations.ReadLoadClrAreIdempotentPermIsNot : Prop :=
  (∀ len d s t u, exec (.read len d) s = .next t → exec (.read len d) t = .next u →
    u.rsp = t.rsp ∧ u.lanes = s.lanes) ∧
  (∀ len d s t u, exec (.load len d) s = .next t → exec (.load len d) t = .next u →
    u.lanes = t.lanes) ∧
  (∀ len d s t u, exec (.clr len d) s = .next t → exec (.clr len d) t = .next u →
    u.lanes = t.lanes) ∧
  (∃ l, permuteLanes (permuteLanes l) ≠ permuteLanes l)

/-! ### The exception -/

/-- R210, R211: an accepted command answers `rsp_err = 1` if and only if it is a `LOAD` with
`len ≠ 48`; no uop answers it. -/
def Obligations.InvalidLengthIsRaisedByLoadOnly : Prop :=
  (∀ s t word d, stepEvent s = .accept word d → step s = .next t →
    ((∃ r, t.rsp = some r ∧ r.err = true) ↔ (cmdOp word = 0b01 ∧ (cmdLen word).toNat ≠ 48))) ∧
  (∀ s t, stepEvent s = .slot → step s = .next t → ∀ r, t.rsp = some r → r.err = false)

/-- R212: a `LOAD` that fails changes no lane, neither `busy` nor `pc`, answers `(1, -)`, records
nothing, and leaves the engine ready for the next command. (`inputs` and `tick`, which every step
moves on, are the model's own: log entries 2 and 5.) -/
def Obligations.InvalidLengthChangesNothing : Prop :=
  ∀ (s : State) (word : BitVec 10) (d : Bytes48) (rest : List Pins), s.Inv → s.busy = false →
    s.inputs = ⟨false, true, word, d⟩ :: rest → cmdOp word = 0b01 → (cmdLen word).toNat ≠ 48 →
    step s = .next { s with rsp := some ⟨true, none⟩, inputs := rest, tick := s.tick + 1 } ∧
    (∀ t, step s = .next t → (currentPins t).rst = false → cmdReady t = true)

/-- R213, R219, R28: a failed `LOAD` is forgotten. The step after it is the step the engine would have
taken had the `LOAD` never been offered. (`tick` counts both steps: the model's choice, log entry 5.) -/
def Obligations.FailedLoadIsForgotten : Prop :=
  ∀ (s t : State) (word : BitVec 10) (d : Bytes48) (rest : List Pins), s.Inv → s.busy = false →
    s.inputs = ⟨false, true, word, d⟩ :: rest → cmdOp word = 0b01 → (cmdLen word).toNat ≠ 48 →
    step s = .next t → step t = step { s with inputs := rest, tick := s.tick + 1 }

/-! ### The mixing step -/

/-- R150: bit `k` of `rotl32(v, n)` is bit `(k - n) mod 32` of `v`, for every `n` from 1 to 31; the two
rotations used, as slices. -/
def Obligations.RotateMovesBitsAround : Prop :=
  ∀ v : Word,
    (∀ n k : Nat, 1 ≤ n → n ≤ 31 → k < 32 →
      (rotl32 v n).getLsbD k = v.getLsbD ((k + 32 - n) % 32)) ∧
    rotl32 v 24 = v.extractLsb' 0 8 ++ v.extractLsb' 8 24 ∧
    rotl32 v 9 = v.extractLsb' 0 23 ++ v.extractLsb' 23 9

/-- R151: `shl32(v, n)` is `(v * 2^n) mod 2^32`: it discards and does not wrap. -/
def Obligations.ShiftDiscardsHighBits : Prop :=
  ∀ (v : Word) (n : Nat), 1 ≤ n → n ≤ 3 →
    (shl32 v n).toNat = (v.toNat * 2 ^ n) % 2 ^ 32 ∧
    (∀ k, k < 32 → (shl32 v n).getLsbD k = (decide (n ≤ k) && v.getLsbD (k - n)))

/-- R153: the lane function, written with the rotations of core Lean. -/
def Obligations.SpComputesTheThreeLanes : Prop :=
  ∀ a b c : Word,
    (sp ⟨a, b, c⟩).c =
      a.rotateLeft 24 ^^^ (c <<< 1) ^^^ ((b.rotateLeft 9 &&& c) <<< 2) ∧
    (sp ⟨a, b, c⟩).b =
      b.rotateLeft 9 ^^^ a.rotateLeft 24 ^^^ ((a.rotateLeft 24 ||| c) <<< 1) ∧
    (sp ⟨a, b, c⟩).a =
      c ^^^ b.rotateLeft 9 ^^^ ((a.rotateLeft 24 &&& b.rotateLeft 9) <<< 3)

/-- R154, R155 and its frame: `SPBOX` replaces every column by `sp` of the old column and changes
nothing but lanes; the zero State is a fixed point; its word is `0x00`, in four slots a big round. -/
def Obligations.SpboxMixesTheFourColumns : Prop :=
  (∀ s, ∃ t, exec .spbox s = .next t ∧
    (∀ j, column t.lanes j = sp (column s.lanes j)) ∧
    (s.lanes = Lanes.zero → t.lanes = Lanes.zero) ∧ KeepsAllButLanes s t) ∧
  encode .spbox = .uop 0x00 ∧
  (∀ k : Fin 42, scheduleRom[k] = 0x00 ↔
    k.val % 7 = 0 ∨ k.val % 7 = 3 ∨ k.val % 7 = 4 ∨ k.val % 7 = 6)

/-- R156, R24: no micro-operation carries a value of `B` or `C` to another column. If two states have the
same column `j`, then after any one uop their `B[j]` and `C[j]` are the same, and after `SPBOX` their `A[j]`
too. After any other uop the word `A` depends on the old `A` and the constant store only, whatever `B` and
`C` are. -/
def Obligations.UopsKeepBAndCInTheirColumns : Prop :=
  (∀ (i : Instr) (j : Fin 4) (s s' t t' : State), i.format = .uop →
    column s.lanes j = column s'.lanes j → exec i s = .next t → exec i s' = .next t' →
    rowLane t.lanes.B j = rowLane t'.lanes.B j ∧ rowLane t.lanes.C j = rowLane t'.lanes.C j ∧
      (i = .spbox → rowLane t.lanes.A j = rowLane t'.lanes.A j)) ∧
  (∀ (i : Instr) (s s' t t' : State), i.format = .uop → i ≠ .spbox →
    s.lanes.A = s'.lanes.A → s.rc = s'.rc → exec i s = .next t → exec i s' = .next t' →
    t.lanes.A = t'.lanes.A)

/-! ### The micro-operations on word A -/

/-- R170 and its frame: `SSWAP` exchanges lanes 0 and 1, and 2 and 3, of `A`; bytes 16 to 47 and all
else are kept; twice is the identity; its word is `0x01`, in slots `7 i + 1`. -/
def Obligations.SswapSwapsPairsOfA : Prop :=
  (∀ s, ∃ t, exec .sswap s = .next t ∧
    t.lanes.A = ⟨s.lanes.A.w1, s.lanes.A.w0, s.lanes.A.w3, s.lanes.A.w2⟩ ∧
    t.lanes.B = s.lanes.B ∧ t.lanes.C = s.lanes.C ∧
    (∀ k : Fin 48, 16 ≤ k.val → byteAt t.lanes k = byteAt s.lanes k) ∧
    exec .sswap t = .next s ∧ KeepsAllButLanes s t) ∧
  encode .sswap = .uop 0x01 ∧
  (∀ k : Fin 42, scheduleRom[k] = 0x01 ↔ k.val % 7 = 1)

/-- R172 and its frame: `BSWAP` exchanges the two halves of `A`; bytes 16 to 47 and all else are kept;
twice is the identity; it commutes with `SSWAP`, and the two reverse `A`; its word is `0x02`, in slots
`7 i + 5`. -/
def Obligations.BswapSwapsHalvesOfA : Prop :=
  (∀ s, ∃ t, exec .bswap s = .next t ∧
    t.lanes.A = ⟨s.lanes.A.w2, s.lanes.A.w3, s.lanes.A.w0, s.lanes.A.w1⟩ ∧
    t.lanes.B = s.lanes.B ∧ t.lanes.C = s.lanes.C ∧
    (∀ k : Fin 48, 16 ≤ k.val → byteAt t.lanes k = byteAt s.lanes k) ∧
    exec .bswap t = .next s ∧ KeepsAllButLanes s t) ∧
  (∀ s, ∃ t u v, exec .sswap s = .next t ∧ exec .bswap t = .next v ∧
    exec .bswap s = .next u ∧ exec .sswap u = .next v ∧
    v.lanes.A = ⟨s.lanes.A.w3, s.lanes.A.w2, s.lanes.A.w1, s.lanes.A.w0⟩) ∧
  encode .bswap = .uop 0x02 ∧
  (∀ k : Fin 42, scheduleRom[k] = 0x02 ↔ k.val % 7 = 5)

/-- R171 and its frame: `ADDRC i`, `i = 0..5`, XORs `RC[i]` (R92) into `A[0]`; bytes 4 to 47 and all else are
kept; twice is the identity; its word is `(i << 2) OR 0b11`, in slot `7 i + 2`. -/
def Obligations.AddrcInjectsRoundConstant : Prop :=
  ∀ i : Fin 6,
    (∀ s, ∃ t, exec (.addrc (BitVec.ofNat 3 i.val)) s = .next t ∧
      t.lanes.A = ⟨s.lanes.A.w0 ^^^ s.rc[i], s.lanes.A.w1, s.lanes.A.w2, s.lanes.A.w3⟩ ∧
      (s.Inv → t.lanes.A.w0 = s.lanes.A.w0 ^^^ (0x9e377900 ^^^ BitVec.ofNat 32 (24 - 4 * i.val))) ∧
      t.lanes.B = s.lanes.B ∧ t.lanes.C = s.lanes.C ∧
      (∀ k : Fin 48, 4 ≤ k.val → byteAt t.lanes k = byteAt s.lanes k) ∧
      exec (.addrc (BitVec.ofNat 3 i.val)) t = .next s ∧ KeepsAllButLanes s t) ∧
    encode (.addrc (BitVec.ofNat 3 i.val)) = .uop (BitVec.ofNat 5 (4 * i.val + 3)) ∧
    (∀ k : Fin 42, scheduleRom[k] = BitVec.ofNat 5 (4 * i.val + 3) ↔ k.val = 7 * i.val + 2)

/-- R90: `ADDRC 6` and `ADDRC 7` have no meaning and are refused by name. -/
def Obligations.AddrcSixAndSevenAreRefused : Prop :=
  ∀ s, exec (.addrc 6) s = .refused (.reservedUop 0x1b) ∧
    exec (.addrc 7) s = .refused (.reservedUop 0x1f)

/-! ### Steps -/

/-- R81, R176: a scheduler step runs the uop that the ROM word at `pc` decodes to, on the state with the
host's sample used up and the old response gone, and then advances the slot counter. -/
def Obligations.SlotRunsTheDecodedUop : Prop :=
  ∀ (s : State) (word : BitVec 5) (i : Instr), s.resetDone = true → s.busy = true →
    (currentPins s).rst = false → s.rom[s.pc.toNat]? = some word → decode (.uop word) = .ok i →
    step s = onNext advanceSlot (exec i (nextCycle s))

/-- R81, R245: a command offered to an engine that is ready is the instruction its word decodes to, run
on the state with the host's sample used up and the old response gone, with nothing added after it.
(`inputs`, `rsp` and `tick` are held as log entries 2, 4 and 5 say.) -/
def Obligations.AcceptedCommandIsExecuted : Prop :=
  ∀ (s : State) (word : BitVec 10) (d : Bytes48) (rest : List Pins) (i : Instr),
    s.resetDone = true → s.busy = false → s.inputs = ⟨false, true, word, d⟩ :: rest →
    decode (.cmd word d) = .ok i →
    step s = exec i { s with inputs := rest, rsp := none, tick := s.tick + 1 }

/-- R176: a scheduler step is never enabled when `busy = 0`, in any state; with `busy = 1`, from a legal
state and without a reset edge, it is, and it applies the uop of slot `pc` to the lanes and, in the same
step, counts on, or after slot 41 goes idle and responds. -/
def Obligations.SchedulerStepCountsTheSlots : Prop :=
  (∀ s, s.busy = false → stepEvent s ≠ .slot) ∧
  (∀ s, s.Inv → s.busy = true → (currentPins s).rst = false →
    ∃ word i u t, s.rom[s.pc.toNat]? = some word ∧ decode (.uop word) = .ok i ∧
      exec i (nextCycle s) = .next u ∧ step s = .next t ∧ t.lanes = u.lanes ∧
      KeepsStoresAndHost u t ∧
      (if s.pc.toNat = 41 then t.pc = 0 ∧ t.busy = false ∧ t.rsp = some ⟨false, none⟩
      else t.pc.toNat = s.pc.toNat + 1 ∧ t.busy = true ∧ t.rsp = none))

/-- The model's choice (log entry 10; R26 says the values are never reached): a scheduler step whose `pc`
is no slot stops with a fault. -/
def Obligations.SlotOutsideTheRomFaults : Prop :=
  ∀ s, s.resetDone = true → s.busy = true → (currentPins s).rst = false → 42 ≤ s.pc.toNat →
    step s = .fault .slotOutsideRom

/-- R86: while `cmd_valid = 0`, or while `cmd_ready = 0`, the values of `cmd` and `cmd_wdata` have no
effect. -/
def Obligations.UnacceptedCommandHasNoEffect : Prop :=
  ∀ (s : State) (p : Pins) (rest : List Pins) (word : BitVec 10) (d : Bytes48),
    s.inputs = p :: rest → p.cmdValid = false ∨ cmdReady s = false →
    step { s with inputs := { p with cmd := word, wdata := d } :: rest } = step s

/-- R245: a command is accepted exactly when `cmd_valid = 1` and `cmd_ready = 1`, and it is the command
on the port; while `busy = 1` an offered command waits: the step is the one with nothing offered. -/
def Obligations.CommandIsAcceptedWhenReady : Prop :=
  (∀ s, s.resetDone = true →
    ((∃ word d, stepEvent s = .accept word d) ↔
      (currentPins s).cmdValid = true ∧ s.busy = false ∧ (currentPins s).rst = false)) ∧
  (∀ s word d, stepEvent s = .accept word d →
    word = (currentPins s).cmd ∧ d = (currentPins s).wdata) ∧
  (∀ s p rest, s.resetDone = true → s.busy = true → s.inputs = p :: rest →
    step s = step { s with inputs := { p with cmdValid := false } :: rest })

/-- R226: with nothing offered an idle engine holds its State. -/
def Obligations.IdleEngineHoldsItsState : Prop :=
  ∀ s, Ready s → (currentPins s).cmdValid = false →
    ∃ t, step s = .next t ∧ KeepsMemory s t ∧ t.busy = false ∧ t.pc = s.pc ∧ t.rsp = none ∧
      t.rc = s.rc ∧ t.rom = s.rom

/-- R246: a response appears exactly with the acceptance of a `CLR`, `LOAD` or `READ` and with slot 41,
and no response is visible while a `PERM` runs. -/
def Obligations.ResponseAppearsExactlyOnCompletion : Prop :=
  (∀ s t, s.Inv → step s = .next t →
    (t.rsp ≠ none ↔
      (∃ word d, stepEvent s = .accept word d ∧ cmdOp word ≠ 0b10) ∨
        (stepEvent s = .slot ∧ s.pc = 41))) ∧
  (∀ s t, s.Inv → step s = .next t → t.busy = true → t.rsp = none)

/-! ### Ports -/

/-- R34, R87, R244, R248: after the first reset `cmd_ready` is `(NOT busy) AND (NOT rst)`, `rsp_valid`
says whether there is a response, and a response's fields stand on the ports where they have a
meaning. -/
def Obligations.OutputPortsShowReadyAndResponse : Prop :=
  ∀ s, s.resetDone = true →
    (outPins s).cmdReady = (!s.busy && !(currentPins s).rst) ∧
    ((outPins s).rspValid = true ↔ s.rsp ≠ none) ∧
    (∀ r, s.rsp = some r → (outPins s).rspErr = r.err) ∧
    (∀ e v, s.rsp = some ⟨e, some v⟩ → (outPins s).rspRdata = v)

/-- R180, R248: while a `PERM` runs, `cmd_ready = 0`, `rsp_valid = 0`, and no output port carries any
function of the lanes. -/
def Obligations.BusyPortsHideTheLanes : Prop :=
  ∀ (s : State) (l : Lanes), s.Inv → s.busy = true →
    (outPins s).cmdReady = false ∧ (outPins s).rspValid = false ∧
      outPins (setLanes l s) = outPins s

/-- R182, R253: nothing of the sequencing depends on data. Two legal states that agree in all but lanes,
payloads and answered bytes still agree so after any number of steps. -/
def Obligations.ControlIsIndependentOfData : Prop :=
  ∀ (n : Nat) (s t s' : State), s.Inv → t.Inv → controlView s = controlView t →
    Sys2Proof.core.run n s = .next s' →
    ∃ t', Sys2Proof.core.run n t = .next t' ∧ controlView s' = controlView t'

/-! ### The permutation -/

/-- R173: from slot `7 i` of a running `PERM`, seven steps without a reset apply the big round `i`. -/
def Obligations.SevenSlotsAreOneBigRound : Prop :=
  ∀ (s : State) (i : Fin 6), s.Inv → s.busy = true → s.pc.toNat = 7 * i.val →
    (∀ p ∈ s.inputs.take 7, p.rst = false) →
    ∃ t, Sys2Proof.core.run 7 s = .next t ∧
      t.lanes = mixLanes (onA bigSwap (mixLanes (mixLanes
        (onA (injectConstant roundConstants[i]) (onA smallSwap (mixLanes s.lanes)))))) ∧
      (if i.val = 5 then t.busy = false ∧ t.pc = 0 else t.busy = true ∧ t.pc.toNat = 7 * i.val + 7)

/-- R177 to R179: an accepted `PERM`, whose acceptance changes no lane, with no reset before its response executes the slots 0 to 41, each
once and in order, busy and silent meanwhile, and then responds with the lanes `P` of the lanes at its
acceptance; in bytes, `permute` of the bytes a `READ` just before would have answered. (One slot a step,
and one sample of `inputs` a step, are the model's choice: log entries 1 and 2.) -/
def Obligations.PermComputesThePermutation : Prop :=
  ∀ (s : State) (word : BitVec 10) (d : Bytes48) (rest : List Pins), s.Inv → s.busy = false →
    s.inputs = ⟨false, true, word, d⟩ :: rest → cmdOp word = 0b10 →
    (∀ p ∈ rest.take 42, p.rst = false) →
    (∃ u, step s = .next u ∧ u.lanes = s.lanes) ∧
    (∀ k : Nat, k < 42 → ∃ u, Sys2Proof.core.run (k + 1) s = .next u ∧
      u.busy = true ∧ u.pc.toNat = k ∧ u.rsp = none) ∧
    ∃ t, Sys2Proof.core.run 43 s = .next t ∧ t.lanes = permuteLanes s.lanes ∧
      pack t.lanes = permuteBytes (pack s.lanes) ∧ t.busy = false ∧ t.pc = 0 ∧
      t.rsp = some ⟨false, none⟩ ∧ t.inputs = rest.drop 42

/-- R97, R181: the script `PERMN k` from any legal idle state computes `P` applied `k` times and answers
`k` times OK. (The samples a script's host drives are the model's choice: log entry 19.) -/
def Obligations.PermNComputesThePowerOfP : Prop :=
  ∀ (k : Nat) (s : State) (rest : List Pins), s.Inv → s.busy = false →
    s.inputs = scriptSamples (expandPseudo (.permN k)) ++ rest →
    responses (43 * k) s = List.replicate k ⟨false, none⟩ ∧
    ∃ t, Sys2Proof.core.run (43 * k) s = .next t ∧ t.lanes = permuteTimes k s.lanes ∧
      t.busy = false ∧ t.inputs = rest

/-- R184: `P` is a bijection on the States. -/
def Obligations.PermutationIsBijective : Prop :=
  Function.Bijective permuteLanes

/-- R124: unpacking and packing around every permutation gives the same bytes as staying on lanes, for
any number of them. -/
def Obligations.StayingOnLanesGivesTheSameBytes : Prop :=
  ∀ (k : Nat) (v : Bytes48), permuteBytes^[k] v = pack (permuteTimes k (unpack v))

/-! ### Reset -/

/-- R35: the values after reset; `cmd_ready` is 1 in the first cycle after it unless `rst = 1` again. -/
def Obligations.ResetValues : Prop :=
  (∀ m, laneAt State.reset.lanes m = 0) ∧ State.reset.busy = false ∧ State.reset.pc = 0 ∧
  State.reset.rsp = none ∧ State.reset.rc = roundConstants ∧ State.reset.rom = scheduleRom ∧
  (∀ ins, outCmdReady { State.reset with inputs := ins } =
    !(currentPins { State.reset with inputs := ins }).rst)

/-- R240: from every state, `rst = 1` over any number of edges zeroes the lanes, `busy`, `pc` and
`rsp_valid`, accepts no command whatever is offered, and leaves the constant stores; `cmd_ready = 0`
meanwhile. (That each edge uses up a sample of `inputs` is the model's choice: log entries 2 and 16.) -/
def Obligations.ResetEdgesZeroTheEngine : Prop :=
  ∀ (n : Nat) (s : State) (rests rest : List Pins), rests.length = n + 1 →
    (∀ p ∈ rests, p.rst = true) → s.inputs = rests ++ rest →
    outCmdReady s = false ∧
    ∃ t, Sys2Proof.core.run (n + 1) s = .next t ∧
      (∀ m, laneAt t.lanes m = 0) ∧ t.busy = false ∧ t.pc = 0 ∧ t.rsp = none ∧
      t.rc = s.rc ∧ t.rom = s.rom ∧ t.inputs = rest

/-- R241: a reset edge during a `PERM` zeroes the lanes and abandons it: its response never appears, not
even at slot 41, as long as the host offers nothing new. -/
def Obligations.ResetAbandonsAPerm : Prop :=
  ∀ (s : State) (p : Pins) (rest : List Pins), s.Inv → s.busy = true → s.inputs = p :: rest →
    p.rst = true →
    (∃ t, step s = .next t ∧ t.lanes = Lanes.zero ∧ t.busy = false ∧ t.pc = 0 ∧ t.rsp = none) ∧
    ((∀ q ∈ rest, q.cmdValid = false) → ∀ n, responses n s = [])

/-- R242 (the refusal is the spec's; that idle pins are no stop is the model's choice, log entry 6):
before the first reset a command is refused, and nothing else than a reset edge changes that. -/
def Obligations.NothingRunsBeforeTheFirstReset : Prop :=
  ∀ s, s.resetDone = false → (currentPins s).rst = false →
    ((currentPins s).cmdValid = true → step s = .refused .beforeFirstReset) ∧
    ((currentPins s).cmdValid = false → ∃ t, step s = .next t ∧ t.resetDone = false ∧ t.rsp = none)

/-- R243: one reset edge takes any registers whatever, as after power-on, to a legal state that is ready
for every command. -/
def Obligations.OneResetEdgeIsEnoughToBoot : Prop :=
  ∀ s, s.rom = scheduleRom → s.rc = roundConstants → (currentPins s).rst = true →
    ∃ t, step s = .next t ∧ t.Inv ∧ t.lanes = Lanes.zero ∧
      ((currentPins t).rst = false → outCmdReady t = true)

/-! ### The invariant -/

/-- The invariant holds at reset, whatever the host is going to drive. -/
def Obligations.ResetStateIsLegal : Prop :=
  ∀ ins, State.Inv { State.reset with inputs := ins }

/-- R26, R29, R30, R246: every step from a legal state that answers a next state answers a legal one:
the stores keep the spec's constants, `pc` stays a slot, and no response is visible while busy. -/
def Obligations.StepKeepsTheInvariant : Prop :=
  ∀ s t, s.Inv → step s = .next t → t.Inv

/-- R214: from a legal state, whatever the host drives, a step answers a next state: no fault and no
refusal. -/
def Obligations.LegalStatesNeverStop : Prop :=
  ∀ s, s.Inv → CanStep s

/-- R214, R178: a run from reset of any length, under anything the host drives, never stops and ends in
a legal state. -/
def Obligations.RunsFromResetNeverStop : Prop :=
  ∀ (ins : List Pins) (n : Nat), ∃ t,
    Sys2Proof.core.run n { State.reset with inputs := ins } = .next t ∧ t.Inv
end

