-- ==== Sys2Proof/Laws/Decode.lean ====
section
/-!
SUPPORT. The fields of a word and the rows of the opcode table: what is put into a word is read back,
and no word meets two rows.
-/

namespace Sys2Proof

/-- The bits of a command word (R81). -/
theorem getLsbD_cmdWord (len : BitVec 8) (op : BitVec 2) (i : Nat) :
    (cmdWord len op).getLsbD i = if i < 2 then op.getLsbD i else len.getLsbD (i - 2) := by
  have h : (cmdWord len op).getLsbD i = (len ++ op).getLsbD i := rfl
  rw [h, BitVec.getLsbD_append]

/-- The bits of a uop word (R88). -/
theorem getLsbD_uopWord (idx : BitVec 3) (kind : BitVec 2) (i : Nat) :
    (uopWord idx kind).getLsbD i = if i < 2 then kind.getLsbD i else idx.getLsbD (i - 2) := by
  have h : (uopWord idx kind).getLsbD i = (idx ++ kind).getLsbD i := rfl
  rw [h, BitVec.getLsbD_append]

@[simp] theorem cmdOp_cmdWord (len : BitVec 8) (op : BitVec 2) : cmdOp (cmdWord len op) = op := by
  apply BitVec.eq_of_getLsbD_eq
  intro i hi
  simp [cmdOp, getLsbD_cmdWord, hi]

@[simp] theorem cmdLen_cmdWord (len : BitVec 8) (op : BitVec 2) : cmdLen (cmdWord len op) = len := by
  apply BitVec.eq_of_getLsbD_eq
  intro i hi
  simp [cmdLen, getLsbD_cmdWord, hi, show ¬ 2 + i ≤ 1 by omega]

@[simp] theorem uopKind_uopWord (idx : BitVec 3) (kind : BitVec 2) :
    uopKind (uopWord idx kind) = kind := by
  apply BitVec.eq_of_getLsbD_eq
  intro i hi
  simp [uopKind, getLsbD_uopWord, hi]

@[simp] theorem uopIdx_uopWord (idx : BitVec 3) (kind : BitVec 2) :
    uopIdx (uopWord idx kind) = idx := by
  apply BitVec.eq_of_getLsbD_eq
  intro i hi
  simp [uopIdx, getLsbD_uopWord, hi, show ¬ 2 + i ≤ 1 by omega]

/-- A command word is its two fields. -/
theorem cmdWord_fields (word : BitVec 10) : cmdWord (cmdLen word) (cmdOp word) = word := by
  apply BitVec.eq_of_getLsbD_eq
  intro i hi
  rw [getLsbD_cmdWord]
  split
  · next h => simp [cmdOp, h]
  · next h =>
    simp [cmdLen, show i - 2 < 8 by omega, show 2 + (i - 2) = i by omega]

/-- A uop word is its two fields. -/
theorem uopWord_fields (word : BitVec 5) : uopWord (uopIdx word) (uopKind word) = word := by
  apply BitVec.eq_of_getLsbD_eq
  intro i hi
  rw [getLsbD_uopWord]
  split
  · next h => simp [uopKind, h]
  · next h =>
    simp [uopIdx, show i - 2 < 3 by omega, show 2 + (i - 2) = i by omega]

/-- The rows of the opcode table are pairwise disjoint: decoding is unambiguous. -/
theorem opcodeTable_disjoint :
    opcodeTable.Pairwise fun r t => r.disjoint t = true := by
  decide

end Sys2Proof
end

