-- ==== Sys2Proof/Laws/Lanes.lean ====
section
/-!
SUPPORT. The lane view and the byte view are views of one storage: what is put in through a view is read
back through it, and each view determines the lanes (R22, R51).
-/

namespace Sys2Proof.Machine

@[simp] theorem laneAt_lanesOf (f : Fin 12 → Word) (m : Fin 12) : laneAt (lanesOf f) m = f m := by
  fin_cases m <;> rfl

@[simp] theorem lanesOf_laneAt (l : Lanes) : lanesOf (laneAt l) = l := rfl

/-- Lanes are equal when every flat lane is. -/
theorem lanes_ext {l m : Lanes} (h : ∀ i, laneAt l i = laneAt m i) : l = m := by
  rw [← lanesOf_laneAt l, ← lanesOf_laneAt m, funext h]

@[simp] theorem rowLane_rowOf (f : Fin 4 → Word) (j : Fin 4) : rowLane (rowOf f) j = f j := by
  fin_cases j <;> rfl

@[simp] theorem rowOf_rowLane (r : Row) : rowOf (rowLane r) = r := rfl

@[simp] theorem column_lanesOfColumns (f : Fin 4 → Column) (j : Fin 4) :
    column (lanesOfColumns f) j = f j := by
  simp [column, lanesOfColumns]

@[simp] theorem lanesOfColumns_column (l : Lanes) : lanesOfColumns (column l) = l := rfl

/-- The bits of a lane made of four bytes (R51). -/
theorem getLsbD_laneOfBytes (b0 b1 b2 b3 : Byte) (i : Nat) :
    (laneOfBytes b0 b1 b2 b3).getLsbD i =
      if i < 8 then b0.getLsbD i
      else if i < 16 then b1.getLsbD (i - 8)
      else if i < 24 then b2.getLsbD (i - 16)
      else b3.getLsbD (i - 24) := by
  have h : (laneOfBytes b0 b1 b2 b3).getLsbD i = ((b3 ++ b2 ++ b1) ++ b0).getLsbD i := rfl
  rw [h, BitVec.getLsbD_append, BitVec.getLsbD_append, BitVec.getLsbD_append]
  by_cases h8 : i < 8
  · simp [h8]
  · by_cases h16 : i < 16
    · simp [h8, h16, show i - 8 < 8 by omega]
    · by_cases h24 : i < 24
      · simp [h8, h16, h24, show ¬ i - 8 < 8 by omega, show i - 8 - 8 = i - 16 by omega,
          show i - 16 < 8 by omega]
      · simp [h8, h16, h24, show ¬ i - 8 < 8 by omega, show ¬ i - 8 - 8 < 8 by omega,
          show i - 8 - 8 - 8 = i - 24 by omega]

/-- A lane of four bytes as a number (R51). -/
theorem laneOfBytes_toNat (b0 b1 b2 b3 : Byte) :
    (laneOfBytes b0 b1 b2 b3).toNat =
      b0.toNat + 2 ^ 8 * b1.toNat + 2 ^ 16 * b2.toNat + 2 ^ 24 * b3.toNat := by
  have h0 := b0.isLt
  have h1 := b1.isLt
  have h2 := b2.isLt
  have h : (laneOfBytes b0 b1 b2 b3).toNat =
      ((b3.toNat <<< 8 ||| b2.toNat) <<< 8 ||| b1.toNat) <<< 8 ||| b0.toNat := rfl
  rw [h, ← Nat.shiftLeft_add_eq_or_of_lt h2, ← Nat.shiftLeft_add_eq_or_of_lt h1,
    ← Nat.shiftLeft_add_eq_or_of_lt h0]
  simp only [Nat.shiftLeft_eq]
  omega

/-- A lane read byte by byte and put together again is the lane. -/
@[simp] theorem laneOfBytes_byteOfLane (w : Word) :
    laneOfBytes (byteOfLane w 0) (byteOfLane w 1) (byteOfLane w 2) (byteOfLane w 3) = w := by
  apply BitVec.eq_of_getLsbD_eq
  intro i hi
  rw [getLsbD_laneOfBytes]
  unfold byteOfLane
  by_cases h8 : i < 8
  · simp [h8]
  · by_cases h16 : i < 16
    · simp [h8, h16, show i - 8 < 8 by omega, show 8 + (i - 8) = i by omega]
    · by_cases h24 : i < 24
      · simp [h8, h16, h24, show i - 16 < 8 by omega, show 16 + (i - 16) = i by omega]
      · simp [h8, h16, h24, show i - 24 < 8 by omega, show 24 + (i - 24) = i by omega]

@[simp] theorem byteOfLane_laneOfBytes_zero (b0 b1 b2 b3 : Byte) :
    byteOfLane (laneOfBytes b0 b1 b2 b3) 0 = b0 := by
  apply BitVec.eq_of_getLsbD_eq
  intro i hi
  simp [byteOfLane, getLsbD_laneOfBytes, hi]

@[simp] theorem byteOfLane_laneOfBytes_one (b0 b1 b2 b3 : Byte) :
    byteOfLane (laneOfBytes b0 b1 b2 b3) 1 = b1 := by
  apply BitVec.eq_of_getLsbD_eq
  intro i hi
  simp [byteOfLane, getLsbD_laneOfBytes, hi, show 8 + i < 16 by omega]

@[simp] theorem byteOfLane_laneOfBytes_two (b0 b1 b2 b3 : Byte) :
    byteOfLane (laneOfBytes b0 b1 b2 b3) 2 = b2 := by
  apply BitVec.eq_of_getLsbD_eq
  intro i hi
  simp [byteOfLane, getLsbD_laneOfBytes, hi, show ¬ 16 + i < 8 by omega, show 16 + i < 24 by omega]

@[simp] theorem byteOfLane_laneOfBytes_three (b0 b1 b2 b3 : Byte) :
    byteOfLane (laneOfBytes b0 b1 b2 b3) 3 = b3 := by
  apply BitVec.eq_of_getLsbD_eq
  intro i hi
  simp [byteOfLane, getLsbD_laneOfBytes, hi, show ¬ 24 + i < 8 by omega,
    show ¬ 24 + i < 16 by omega]

/-- Writing all 48 bytes and reading one back: byte by byte, `pack (unpack v) = v` (R122). -/
@[simp] theorem byteAt_lanesOfBytes (f : Fin 48 → Byte) (k : Fin 48) :
    byteAt (lanesOfBytes f) k = f k := by
  obtain ⟨k, hk⟩ := k
  simp only [byteAt, lanesOfBytes, laneAt_lanesOf]
  have hr : k % 4 = 0 ∨ k % 4 = 1 ∨ k % 4 = 2 ∨ k % 4 = 3 := by omega
  rcases hr with h | h | h | h <;> simp only [h, byteOfLane_laneOfBytes_zero,
    byteOfLane_laneOfBytes_one, byteOfLane_laneOfBytes_two, byteOfLane_laneOfBytes_three] <;>
    congr 1 <;> ext <;> simp <;> omega

/-- The byte view determines the lanes: through it, `unpack (pack l) = l` (R122). -/
@[simp] theorem lanesOfBytes_byteAt (l : Lanes) : lanesOfBytes (byteAt l) = l := by
  apply lanes_ext
  intro m
  simp only [lanesOfBytes, laneAt_lanesOf, byteAt]
  have h0 : 4 * m.val / 4 = m.val := by omega
  have h1 : (4 * m.val + 1) / 4 = m.val := by omega
  have h2 : (4 * m.val + 2) / 4 = m.val := by omega
  have h3 : (4 * m.val + 3) / 4 = m.val := by omega
  have g0 : 4 * m.val % 4 = 0 := by omega
  have g1 : (4 * m.val + 1) % 4 = 1 := by omega
  have g2 : (4 * m.val + 2) % 4 = 2 := by omega
  have g3 : (4 * m.val + 3) % 4 = 3 := by omega
  simp only [h0, h1, h2, h3, g0, g1, g2, g3, laneOfBytes_byteOfLane]

/-- Wire `i` of a bus is bit `i mod 8` of byte `i div 8` (R53). -/
theorem getLsbD_toBus (v : Bytes48) (i : Nat) (hi : i < 384) :
    (toBus v).getLsbD i = (v[i / 8]'(by omega)).getLsbD (i % 8) := by
  rw [toBus, BitVec.getLsbD_ofFnLE, dif_pos hi]

end Sys2Proof.Machine
end

