-- ==== Sys2Proof/Laws/PerInstr.lean ====
section
/-!
SUPPORT. The family MeetsRow: the encoding of every well-formed instruction meets the row of the opcode
table that bears its mnemonic (R82, R89).
-/

namespace Sys2Proof.Laws.MeetsRow

/-- The instruction's encoding meets its own row. -/
def Statement (i : Instr) : Prop :=
  i.wf = true → ∃ row ∈ opcodeTable, row.mnemonic = i.mnemonic ∧ row.meets (encode i) = true

/-- The low two bits of a command word are its operation. -/
theorem cmdWord_low (op : BitVec 2) (len : BitVec 8) :
    (cmdWord len op).toNat &&& 3 = op.toNat := by
  have h : (cmdWord len op).toNat &&& 3 = (cmdOp (cmdWord len op)).toNat := by
    rw [cmdOp, BitVec.extractLsb'_toNat, show (3 : Nat) = 2 ^ 2 - 1 from rfl,
      Nat.and_two_pow_sub_one_eq_mod]
    simp
  rw [h, cmdOp_cmdWord]

theorem clr (len : BitVec 8) (wdata : Bytes48) : Statement (.clr len wdata) := fun _ =>
  ⟨⟨"CLR", .cmd, 10, 0x000, 0x003⟩, by decide, rfl, by
    simp [TableRow.meets, encode, Encoded.format, Encoded.bits, cmdWord_low]⟩

theorem load (len : BitVec 8) (wdata : Bytes48) : Statement (.load len wdata) := fun _ =>
  ⟨⟨"LOAD", .cmd, 10, 0x001, 0x003⟩, by decide, rfl, by
    simp [TableRow.meets, encode, Encoded.format, Encoded.bits, cmdWord_low]⟩

theorem perm (len : BitVec 8) (wdata : Bytes48) : Statement (.perm len wdata) := fun _ =>
  ⟨⟨"PERM", .cmd, 10, 0x002, 0x003⟩, by decide, rfl, by
    simp [TableRow.meets, encode, Encoded.format, Encoded.bits, cmdWord_low]⟩

theorem read (len : BitVec 8) (wdata : Bytes48) : Statement (.read len wdata) := fun _ =>
  ⟨⟨"READ", .cmd, 10, 0x003, 0x003⟩, by decide, rfl, by
    simp [TableRow.meets, encode, Encoded.format, Encoded.bits, cmdWord_low]⟩

theorem spbox : Statement .spbox := fun _ =>
  ⟨⟨"SPBOX", .uop, 5, 0x00, 0x1f⟩, by decide, rfl, by decide⟩

theorem sswap : Statement .sswap := fun _ =>
  ⟨⟨"SSWAP", .uop, 5, 0x01, 0x1f⟩, by decide, rfl, by decide⟩

theorem bswap : Statement .bswap := fun _ =>
  ⟨⟨"BSWAP", .uop, 5, 0x02, 0x1f⟩, by decide, rfl, by decide⟩

theorem addrc (idx : BitVec 3) : Statement (.addrc idx) := fun _ =>
  ⟨⟨"ADDRC", .uop, 5, 0x03, 0x03⟩, by decide, rfl, by revert idx; decide⟩

end Sys2Proof.Laws.MeetsRow
end

