-- ==== Sys2Proof/Laws/State.lean ====
section
/-!
SUPPORT. What each state update writes and leaves: one lemma per field per update, all by rfl.
-/

namespace Sys2Proof.Machine

/-! ### setLanes -/

@[simp] theorem setLanes_lanes (l : Lanes) (s : State) : (setLanes l s).lanes = l := rfl
@[simp] theorem setLanes_busy (l : Lanes) (s : State) : (setLanes l s).busy = s.busy := rfl
@[simp] theorem setLanes_pc (l : Lanes) (s : State) : (setLanes l s).pc = s.pc := rfl
@[simp] theorem setLanes_rsp (l : Lanes) (s : State) : (setLanes l s).rsp = s.rsp := rfl
@[simp] theorem setLanes_rc (l : Lanes) (s : State) : (setLanes l s).rc = s.rc := rfl
@[simp] theorem setLanes_rom (l : Lanes) (s : State) : (setLanes l s).rom = s.rom := rfl
@[simp] theorem setLanes_resetDone (l : Lanes) (s : State) : (setLanes l s).resetDone = s.resetDone := rfl
@[simp] theorem setLanes_inputs (l : Lanes) (s : State) : (setLanes l s).inputs = s.inputs := rfl
@[simp] theorem setLanes_tick (l : Lanes) (s : State) : (setLanes l s).tick = s.tick := rfl

/-! ### setSequencer -/

@[simp] theorem setSequencer_lanes (b : Bool) (p : BitVec 6) (s : State) : (setSequencer b p s).lanes = s.lanes := rfl
@[simp] theorem setSequencer_busy (b : Bool) (p : BitVec 6) (s : State) : (setSequencer b p s).busy = b := rfl
@[simp] theorem setSequencer_pc (b : Bool) (p : BitVec 6) (s : State) : (setSequencer b p s).pc = p := rfl
@[simp] theorem setSequencer_rsp (b : Bool) (p : BitVec 6) (s : State) : (setSequencer b p s).rsp = s.rsp := rfl
@[simp] theorem setSequencer_rc (b : Bool) (p : BitVec 6) (s : State) : (setSequencer b p s).rc = s.rc := rfl
@[simp] theorem setSequencer_rom (b : Bool) (p : BitVec 6) (s : State) : (setSequencer b p s).rom = s.rom := rfl
@[simp] theorem setSequencer_resetDone (b : Bool) (p : BitVec 6) (s : State) : (setSequencer b p s).resetDone = s.resetDone := rfl
@[simp] theorem setSequencer_inputs (b : Bool) (p : BitVec 6) (s : State) : (setSequencer b p s).inputs = s.inputs := rfl
@[simp] theorem setSequencer_tick (b : Bool) (p : BitVec 6) (s : State) : (setSequencer b p s).tick = s.tick := rfl

/-! ### respond -/

@[simp] theorem respond_lanes (e : Bool) (d : Option Bytes48) (s : State) : (respond e d s).lanes = s.lanes := rfl
@[simp] theorem respond_busy (e : Bool) (d : Option Bytes48) (s : State) : (respond e d s).busy = s.busy := rfl
@[simp] theorem respond_pc (e : Bool) (d : Option Bytes48) (s : State) : (respond e d s).pc = s.pc := rfl
@[simp] theorem respond_rsp (e : Bool) (d : Option Bytes48) (s : State) : (respond e d s).rsp = some ⟨e, d⟩ := rfl
@[simp] theorem respond_rc (e : Bool) (d : Option Bytes48) (s : State) : (respond e d s).rc = s.rc := rfl
@[simp] theorem respond_rom (e : Bool) (d : Option Bytes48) (s : State) : (respond e d s).rom = s.rom := rfl
@[simp] theorem respond_resetDone (e : Bool) (d : Option Bytes48) (s : State) : (respond e d s).resetDone = s.resetDone := rfl
@[simp] theorem respond_inputs (e : Bool) (d : Option Bytes48) (s : State) : (respond e d s).inputs = s.inputs := rfl
@[simp] theorem respond_tick (e : Bool) (d : Option Bytes48) (s : State) : (respond e d s).tick = s.tick := rfl

/-! ### raiseInvalidLength -/

@[simp] theorem raiseInvalidLength_lanes (n : Nat) (s : State) : (raiseInvalidLength n s).lanes = s.lanes := rfl
@[simp] theorem raiseInvalidLength_busy (n : Nat) (s : State) : (raiseInvalidLength n s).busy = s.busy := rfl
@[simp] theorem raiseInvalidLength_pc (n : Nat) (s : State) : (raiseInvalidLength n s).pc = s.pc := rfl
@[simp] theorem raiseInvalidLength_rsp (n : Nat) (s : State) : (raiseInvalidLength n s).rsp = some ⟨true, none⟩ := rfl
@[simp] theorem raiseInvalidLength_rc (n : Nat) (s : State) : (raiseInvalidLength n s).rc = s.rc := rfl
@[simp] theorem raiseInvalidLength_rom (n : Nat) (s : State) : (raiseInvalidLength n s).rom = s.rom := rfl
@[simp] theorem raiseInvalidLength_resetDone (n : Nat) (s : State) : (raiseInvalidLength n s).resetDone = s.resetDone := rfl
@[simp] theorem raiseInvalidLength_inputs (n : Nat) (s : State) : (raiseInvalidLength n s).inputs = s.inputs := rfl
@[simp] theorem raiseInvalidLength_tick (n : Nat) (s : State) : (raiseInvalidLength n s).tick = s.tick := rfl

/-! ### nextCycle -/

@[simp] theorem nextCycle_lanes (s : State) : (nextCycle s).lanes = s.lanes := rfl
@[simp] theorem nextCycle_busy (s : State) : (nextCycle s).busy = s.busy := rfl
@[simp] theorem nextCycle_pc (s : State) : (nextCycle s).pc = s.pc := rfl
@[simp] theorem nextCycle_rsp (s : State) : (nextCycle s).rsp = none := rfl
@[simp] theorem nextCycle_rc (s : State) : (nextCycle s).rc = s.rc := rfl
@[simp] theorem nextCycle_rom (s : State) : (nextCycle s).rom = s.rom := rfl
@[simp] theorem nextCycle_resetDone (s : State) : (nextCycle s).resetDone = s.resetDone := rfl
@[simp] theorem nextCycle_inputs (s : State) : (nextCycle s).inputs = s.inputs.tail := rfl
@[simp] theorem nextCycle_tick (s : State) : (nextCycle s).tick = s.tick + 1 := rfl

/-! ### resetEdge -/

@[simp] theorem resetEdge_lanes (s : State) : (resetEdge s).lanes = Lanes.zero := rfl
@[simp] theorem resetEdge_busy (s : State) : (resetEdge s).busy = false := rfl
@[simp] theorem resetEdge_pc (s : State) : (resetEdge s).pc = 0 := rfl
@[simp] theorem resetEdge_rsp (s : State) : (resetEdge s).rsp = none := rfl
@[simp] theorem resetEdge_rc (s : State) : (resetEdge s).rc = s.rc := rfl
@[simp] theorem resetEdge_rom (s : State) : (resetEdge s).rom = s.rom := rfl
@[simp] theorem resetEdge_resetDone (s : State) : (resetEdge s).resetDone = true := rfl
@[simp] theorem resetEdge_inputs (s : State) : (resetEdge s).inputs = s.inputs.tail := rfl
@[simp] theorem resetEdge_tick (s : State) : (resetEdge s).tick = s.tick + 1 := rfl

/-! ### resetRegisters -/

@[simp] theorem resetRegisters_lanes (s : State) : (resetRegisters s).lanes = Lanes.zero := rfl
@[simp] theorem resetRegisters_busy (s : State) : (resetRegisters s).busy = false := rfl
@[simp] theorem resetRegisters_pc (s : State) : (resetRegisters s).pc = 0 := rfl
@[simp] theorem resetRegisters_rsp (s : State) : (resetRegisters s).rsp = none := rfl
@[simp] theorem resetRegisters_rc (s : State) : (resetRegisters s).rc = s.rc := rfl
@[simp] theorem resetRegisters_rom (s : State) : (resetRegisters s).rom = s.rom := rfl
@[simp] theorem resetRegisters_resetDone (s : State) : (resetRegisters s).resetDone = true := rfl
@[simp] theorem resetRegisters_inputs (s : State) : (resetRegisters s).inputs = s.inputs := rfl
@[simp] theorem resetRegisters_tick (s : State) : (resetRegisters s).tick = s.tick := rfl

/-! ### placeCommand -/

@[simp] theorem placeCommand_lanes (w : BitVec 10) (d : Bytes48) (s : State) :
    (placeCommand w d s).lanes =
      s.lanes := rfl
@[simp] theorem placeCommand_busy (w : BitVec 10) (d : Bytes48) (s : State) :
    (placeCommand w d s).busy =
      false := rfl
@[simp] theorem placeCommand_pc (w : BitVec 10) (d : Bytes48) (s : State) :
    (placeCommand w d s).pc =
      s.pc := rfl
@[simp] theorem placeCommand_rsp (w : BitVec 10) (d : Bytes48) (s : State) :
    (placeCommand w d s).rsp =
      s.rsp := rfl
@[simp] theorem placeCommand_rc (w : BitVec 10) (d : Bytes48) (s : State) :
    (placeCommand w d s).rc =
      s.rc := rfl
@[simp] theorem placeCommand_rom (w : BitVec 10) (d : Bytes48) (s : State) :
    (placeCommand w d s).rom =
      s.rom := rfl
@[simp] theorem placeCommand_resetDone (w : BitVec 10) (d : Bytes48) (s : State) :
    (placeCommand w d s).resetDone =
      true := rfl
@[simp] theorem placeCommand_inputs (w : BitVec 10) (d : Bytes48) (s : State) :
    (placeCommand w d s).inputs =
      ⟨false, true, w, d⟩ :: s.inputs.tail := rfl
@[simp] theorem placeCommand_tick (w : BitVec 10) (d : Bytes48) (s : State) :
    (placeCommand w d s).tick =
      s.tick := rfl

/-! ### placeUop -/

@[simp] theorem placeUop_lanes (w : BitVec 5) (s : State) : (placeUop w s).lanes = s.lanes := rfl
@[simp] theorem placeUop_busy (w : BitVec 5) (s : State) : (placeUop w s).busy = true := rfl
@[simp] theorem placeUop_pc (w : BitVec 5) (s : State) :
    (placeUop w s).pc =
      if s.pc.toNat < 42 then s.pc else 0 := rfl
@[simp] theorem placeUop_rsp (w : BitVec 5) (s : State) : (placeUop w s).rsp = s.rsp := rfl
@[simp] theorem placeUop_rc (w : BitVec 5) (s : State) : (placeUop w s).rc = s.rc := rfl
@[simp] theorem placeUop_rom (w : BitVec 5) (s : State) :
    (placeUop w s).rom =
      s.rom.setIfInBounds (if s.pc.toNat < 42 then s.pc else 0).toNat w := rfl
@[simp] theorem placeUop_resetDone (w : BitVec 5) (s : State) :
    (placeUop w s).resetDone =
      true := rfl
@[simp] theorem placeUop_inputs (w : BitVec 5) (s : State) :
    (placeUop w s).inputs =
      if (currentPins s).rst then Pins.idle :: s.inputs.tail else s.inputs := rfl
@[simp] theorem placeUop_tick (w : BitVec 5) (s : State) : (placeUop w s).tick = s.tick := rfl

/-! ### advanceSlot -/

/-- After the last slot: idle, with the response of the `PERM` (R176). -/
theorem advanceSlot_last (s : State) (h : s.pc = 41) :
    advanceSlot s = { s with busy := false, pc := 0, rsp := some ⟨false, none⟩ } := by
  simp [advanceSlot, h, respond, setSequencer]

/-- After any other slot: the next one (R176). -/
theorem advanceSlot_other (s : State) (h : s.pc ≠ 41) :
    advanceSlot s = { s with pc := s.pc + 1 } := by
  rw [advanceSlot, if_neg h, setSequencer]

@[simp] theorem advanceSlot_lanes (s : State) : (advanceSlot s).lanes = s.lanes := by
  unfold advanceSlot; split <;> rfl
@[simp] theorem advanceSlot_rc (s : State) : (advanceSlot s).rc = s.rc := by
  unfold advanceSlot; split <;> rfl
@[simp] theorem advanceSlot_rom (s : State) : (advanceSlot s).rom = s.rom := by
  unfold advanceSlot; split <;> rfl
@[simp] theorem advanceSlot_resetDone (s : State) : (advanceSlot s).resetDone = s.resetDone := by
  unfold advanceSlot; split <;> rfl
@[simp] theorem advanceSlot_inputs (s : State) : (advanceSlot s).inputs = s.inputs := by
  unfold advanceSlot; split <;> rfl
@[simp] theorem advanceSlot_tick (s : State) : (advanceSlot s).tick = s.tick := by
  unfold advanceSlot; split <;> rfl

end Sys2Proof.Machine
end

