-- ==== Sys2Proof/Laws/Step.lean ====
section
/-!
SUPPORT. What a step can do: one equation per event, and one inversion lemma that names every way a step
can answer a next state.
-/

namespace Sys2Proof.Machine

/-! ### Events -/

theorem stepEvent_reset {s : State} (h : (currentPins s).rst = true) : stepEvent s = .reset := by
  simp [stepEvent, h]

theorem stepEvent_tooEarly {s : State} (hr : (currentPins s).rst = false)
    (hd : s.resetDone = false) (hv : (currentPins s).cmdValid = true) :
    stepEvent s = .tooEarly := by
  simp [stepEvent, hr, hd, hv]

theorem stepEvent_slot {s : State} (hr : (currentPins s).rst = false) (hd : s.resetDone = true)
    (hb : s.busy = true) : stepEvent s = .slot := by
  simp [stepEvent, hr, hd, hb]

theorem stepEvent_accept {s : State} (hr : (currentPins s).rst = false) (hd : s.resetDone = true)
    (hb : s.busy = false) (hv : (currentPins s).cmdValid = true) :
    stepEvent s = .accept (currentPins s).cmd (currentPins s).wdata := by
  simp [stepEvent, cmdReady, hr, hd, hb, hv]

theorem stepEvent_idle {s : State} (hr : (currentPins s).rst = false)
    (hv : (currentPins s).cmdValid = false) (hb : s.resetDone = true → s.busy = false) :
    stepEvent s = .idle := by
  cases hd : s.resetDone
  · simp [stepEvent, hr, hd, hv]
  · simp [stepEvent, hr, hd, hv, hb hd]

/-- What a slot event says of the state (R176). -/
theorem of_stepEvent_slot {s : State} (h : stepEvent s = .slot) :
    (currentPins s).rst = false ∧ s.resetDone = true ∧ s.busy = true := by
  revert h
  unfold stepEvent
  cases (currentPins s).rst <;> cases s.resetDone <;> cases s.busy <;>
    cases (currentPins s).cmdValid <;> cases cmdReady s <;> simp

/-- What an acceptance says of the state and the ports (R245). -/
theorem of_stepEvent_accept {s : State} {word : BitVec 10} {wdata : Bytes48}
    (h : stepEvent s = .accept word wdata) :
    (currentPins s).rst = false ∧ s.resetDone = true ∧ s.busy = false ∧
      (currentPins s).cmdValid = true ∧ (currentPins s).cmd = word ∧
      (currentPins s).wdata = wdata := by
  revert h
  unfold stepEvent
  cases (currentPins s).rst <;> cases s.resetDone <;> cases s.busy <;>
    cases (currentPins s).cmdValid <;> cases cmdReady s <;> simp

/-- What an edge at which nothing happens says of the state and the ports (R226). -/
theorem of_stepEvent_idle {s : State} (h : stepEvent s = .idle) :
    (currentPins s).rst = false ∧ (currentPins s).cmdValid = false ∧
      (s.resetDone = true → s.busy = false) := by
  revert h
  unfold stepEvent cmdReady
  cases (currentPins s).rst <;> cases s.resetDone <;> cases s.busy <;>
    cases (currentPins s).cmdValid <;> simp

/-- What a refused early command says of the state and the ports (R242). -/
theorem of_stepEvent_tooEarly {s : State} (h : stepEvent s = .tooEarly) :
    (currentPins s).rst = false ∧ s.resetDone = false ∧ (currentPins s).cmdValid = true := by
  revert h
  unfold stepEvent
  cases (currentPins s).rst <;> cases s.resetDone <;> cases s.busy <;>
    cases (currentPins s).cmdValid <;> cases cmdReady s <;> simp

/-- What a reset event says of the ports (R240). -/
theorem of_stepEvent_reset {s : State} (h : stepEvent s = .reset) : (currentPins s).rst = true := by
  revert h
  unfold stepEvent
  cases (currentPins s).rst <;> cases s.resetDone <;> cases s.busy <;>
    cases (currentPins s).cmdValid <;> cases cmdReady s <;> simp

/-! ### One equation per event -/

theorem step_of_reset {s : State} (h : stepEvent s = .reset) : step s = .next (resetEdge s) := by
  simp [step, h]

theorem step_of_tooEarly {s : State} (h : stepEvent s = .tooEarly) :
    step s = .refused .beforeFirstReset := by
  simp [step, h]

theorem step_of_idle {s : State} (h : stepEvent s = .idle) : step s = .next (nextCycle s) := by
  simp [step, h]

theorem step_of_slot {s : State} (h : stepEvent s = .slot) : step s = schedulerStep s := by
  simp [step, h]

/-- `onNext id` changes nothing. -/
@[simp] theorem onNext_id (o : Host.Outcome State Fault Refusal) : onNext id o = o := by
  cases o <;> rfl

/-- An accepted command is decoded and executed, with nothing added after it. -/
theorem step_of_accept {s : State} {word : BitVec 10} {wdata : Bytes48}
    (h : stepEvent s = .accept word wdata) :
    step s = exec (decodeCmd word wdata) (nextCycle s) := by
  simp [step, h, decode, runDecoded]

/-! ### Operands -/

/-- The length check asks for 48 in all 8 bits (R84, R211). -/
theorem lengthValid_iff (len : BitVec 8) : lengthValid len = true ↔ len.toNat = 48 := by
  simp [lengthValid, lengthOperand, requiredLength]

/-- A constant index from 0 to 5 reads the store (R93). -/
theorem roundConstant_of_lt {idx : BitVec 3} (h : idx.toNat < 6) (s : State) :
    roundConstant idx s = some s.rc[idx.toNat] := by
  simp [roundConstant, h]

/-- The indexes 6 and 7 read nothing (R90). -/
theorem roundConstant_of_ge {idx : BitVec 3} (h : 6 ≤ idx.toNat) (s : State) :
    roundConstant idx s = none := by
  simp [roundConstant, h]

/-- A slot of the ROM is fetched (R176). -/
theorem fetchSlot_of_lt {s : State} (h : s.pc.toNat < 42) : fetchSlot s = some s.rom[s.pc.toNat] := by
  simp [fetchSlot, h]

/-! ### What exec can answer -/

/-- Every next state of `exec`: the lanes, the two control registers and the response may change, nothing
else. -/
theorem exec_leaves {i : Instr} {s t : State} (h : exec i s = .next t) :
    t.rc = s.rc ∧ t.rom = s.rom ∧ t.resetDone = s.resetDone ∧ t.inputs = s.inputs ∧
      t.tick = s.tick := by
  cases i with
  | clr len wdata => cases h; simp
  | load len wdata =>
    simp only [exec, execLoad] at h
    split at h <;> cases h <;> simp
  | perm len wdata => cases h; simp
  | read len wdata => cases h; simp
  | spbox => cases h; simp
  | sswap => cases h; simp
  | bswap => cases h; simp
  | addrc idx =>
    simp only [exec, execAddrc] at h
    split at h
    · cases h; simp
    · cases h

/-- A micro-operation changes the lanes only. -/
theorem exec_uop {i : Instr} (hi : i.format = .uop) {s t : State} (h : exec i s = .next t) :
    t = setLanes t.lanes s := by
  cases i with
  | clr len wdata => cases hi
  | load len wdata => cases hi
  | perm len wdata => cases hi
  | read len wdata => cases hi
  | spbox => cases h; rfl
  | sswap => cases h; rfl
  | bswap => cases h; rfl
  | addrc idx =>
    simp only [exec, execAddrc] at h
    split at h
    · cases h; rfl
    · cases h

/-- A well-formed micro-operation always has a next state (R214). -/
theorem exec_uop_answers {i : Instr} (hi : i.format = .uop) (hw : i.wf = true) (s : State) :
    ∃ l, exec i s = .next (setLanes l s) := by
  cases i with
  | clr len wdata => cases hi
  | load len wdata => cases hi
  | perm len wdata => cases hi
  | read len wdata => cases hi
  | spbox => exact ⟨_, rfl⟩
  | sswap => exact ⟨_, rfl⟩
  | bswap => exact ⟨_, rfl⟩
  | addrc idx =>
    have h : idx.toNat < 6 := by simpa [Instr.wf] using hw
    have hk := roundConstant_of_lt h s
    exact ⟨onA (injectConstant s.rc[idx.toNat]) s.lanes, by simp only [exec, execAddrc, hk]⟩

/-- A command always has a next state (R214). -/
theorem exec_cmd_answers {i : Instr} (hi : i.format = .cmd) (s : State) :
    ∃ t, exec i s = .next t := by
  cases i with
  | clr len wdata => exact ⟨_, rfl⟩
  | load len wdata =>
    simp only [exec, execLoad]
    split <;> exact ⟨_, rfl⟩
  | perm len wdata => exact ⟨_, rfl⟩
  | read len wdata => exact ⟨_, rfl⟩
  | spbox => cases hi
  | sswap => cases hi
  | bswap => cases hi
  | addrc idx => cases hi

/-- What the ROM can decode to is a micro-operation that exists. -/
theorem decodeUop_ok {word : BitVec 5} {i : Instr} (h : decodeUop word = .ok i) :
    i.format = .uop ∧ i.wf = true := by
  unfold decodeUop at h
  split at h
  · split at h
    · cases h; exact ⟨rfl, by simpa [Instr.wf]⟩
    · cases h
  · split at h
    · cases h
    · split at h
      · cases h; exact ⟨rfl, rfl⟩
      · split at h <;> cases h <;> exact ⟨rfl, rfl⟩

/-- A command decodes to a command. -/
theorem decodeCmd_format (word : BitVec 10) (wdata : Bytes48) :
    (decodeCmd word wdata).format = .cmd ∧ (decodeCmd word wdata).wf = true := by
  unfold decodeCmd
  repeat' split
  all_goals exact ⟨rfl, rfl⟩

/-! ### What a step can answer -/

/-- A scheduler step that answers a next state fetched a word of the ROM, decoded a micro-operation from
it, ran it, and advanced the slot counter. -/
theorem schedulerStep_next {s t : State} (h : schedulerStep s = .next t) :
    ∃ word i u, fetchSlot s = some word ∧ decodeUop word = .ok i ∧
      exec i (nextCycle s) = .next u ∧ t = advanceSlot u := by
  unfold schedulerStep at h
  split at h
  · next word hw =>
    simp only [decode] at h
    cases hd : decodeUop word with
    | error e => cases e; rw [hd] at h; cases h
    | ok i =>
      rw [hd] at h
      simp only [runDecoded] at h
      cases he : exec i (nextCycle s) with
      | next u => rw [he] at h; cases h; exact ⟨word, i, u, hw, hd, he, rfl⟩
      | fault r => rw [he] at h; cases h
      | refused r => rw [he] at h; cases h
  · cases h

/-- Every way a step can answer a next state. -/
theorem step_next {s t : State} (h : step s = .next t) :
    (stepEvent s = .reset ∧ t = resetEdge s) ∨
    (∃ word wdata, stepEvent s = .accept word wdata ∧
      exec (decodeCmd word wdata) (nextCycle s) = .next t) ∨
    (stepEvent s = .slot ∧ schedulerStep s = .next t) ∨
    (stepEvent s = .idle ∧ t = nextCycle s) := by
  cases he : stepEvent s with
  | reset => rw [step_of_reset he] at h; cases h; exact .inl ⟨rfl, rfl⟩
  | tooEarly => rw [step_of_tooEarly he] at h; cases h
  | accept word wdata =>
    rw [step_of_accept he] at h
    exact .inr (.inl ⟨word, wdata, rfl, h⟩)
  | slot => rw [step_of_slot he] at h; exact .inr (.inr (.inl ⟨rfl, h⟩))
  | idle => rw [step_of_idle he] at h; cases h; exact .inr (.inr (.inr ⟨rfl, rfl⟩))

/-! ### Runs -/

/-- One step and then the rest of the run. -/
theorem run_of_step {s t : State} (n : Nat) (h : step s = .next t) :
    core.run (n + 1) s = core.run n t := by
  have h' : core.step s = .next t := h
  simp only [Host.Core.run, h']

/-- A run in two parts. -/
theorem run_add (m n : Nat) {s t : State} (h : core.run m s = .next t) :
    core.run (m + n) s = core.run n t := by
  induction m generalizing s with
  | zero =>
    cases h
    rw [Nat.zero_add]
  | succ m ih =>
    rw [Nat.add_right_comm]
    cases hs : step s with
    | next u => rw [run_of_step m hs] at h; rw [run_of_step _ hs]; exact ih h
    | fault r =>
      have hs' : core.step s = .fault r := hs
      simp only [Host.Core.run, hs'] at h
      cases h
    | refused r =>
      have hs' : core.step s = .refused r := hs
      simp only [Host.Core.run, hs'] at h
      cases h

end Sys2Proof.Machine
end

