-- ==== Sys2Proof/Tests/Slice0.lean ====
section
/-!
SUPPORT. The model's own tests: words written out from the spec's encodings, the spec's vectors
(95_test_vectors.md), one step each; and for every statement with hypotheses a concrete state that meets
them. Expected values come from the spec, the number of the vector or rule stands beside each.
-/

namespace Sys2Proof.Tests

open Sys2Proof Sys2Proof.Machine

/-! ### Helpers -/

/-- The bytes `00 01 02 ... 2f` (V4). -/
def countBytes : Bytes48 := Vector.ofFn fun k => BitVec.ofNat 8 k.val

/-- The lanes of `countBytes`, as V4 prints them. -/
def countLanes : Lanes :=
  ⟨⟨0x03020100, 0x07060504, 0x0b0a0908, 0x0f0e0d0c⟩,
   ⟨0x13121110, 0x17161514, 0x1b1a1918, 0x1f1e1d1c⟩,
   ⟨0x23222120, 0x27262524, 0x2b2a2928, 0x2f2e2d2c⟩⟩

/-- 48 equal bytes. -/
def fill (b : Byte) : Bytes48 := Vector.replicate 48 b

/-- An idle engine holding `countLanes`, with the host driving `ins`. -/
def loaded (ins : List Pins) : State := { State.reset with lanes := countLanes, inputs := ins }

/-- A running engine holding `countLanes`, at slot `pc`, with the host driving `ins`. -/
def running (pc : BitVec 6) (ins : List Pins) : State :=
  { State.reset with lanes := countLanes, busy := true, pc := pc, inputs := ins }

/-- An engine that has seen no reset yet, its registers anything. -/
def poweredOn (ins : List Pins) : State :=
  { State.reset with lanes := countLanes, busy := true, pc := 63, resetDone := false, inputs := ins }

/-- The host offers this command. -/
def offered (word : BitVec 10) (d : Bytes48) : Pins := ⟨false, true, word, d⟩

/-- The host holds `rst = 1` while offering a command. -/
def resetting : Pins := ⟨true, true, 0x002, Vector.replicate 48 0⟩

/-- What `f` says of the next state, if there is one. -/
def after {α : Type} (o : Host.Outcome State Fault Refusal) (f : State → α) : Option α :=
  match o with
  | .next t => some (f t)
  | .fault _ => none
  | .refused _ => none

/-! ### WellFormed: the one check refuses what it should -/

theorem test_wf_refuses_addrc_six : (Instr.addrc 6).wf = false := by decide
theorem test_wf_refuses_addrc_seven : (Instr.addrc 7).wf = false := by decide
theorem test_wf_accepts_addrc_five : (Instr.addrc 5).wf = true := by decide

/-! ### Decode: a word written out from the spec for every constructor -/

/-- R82, R95: `CLR`, `op = 00`, `len = 0`. -/
theorem test_decode_clr : decode (.cmd 0b0000000000 (fill 0)) = .ok (.clr 0 (fill 0)) := by decide
/-- R82, R95: `LOAD 48` is `len = 00110000`, `op = 01`, `0x0c1`. -/
theorem test_decode_load :
    decode (.cmd 0b0011000001 countBytes) = .ok (.load 48 countBytes) := by decide
/-- R82, V31: `PERM` with `len` 49 is `0x0c6`. -/
theorem test_decode_perm : decode (.cmd 0b0011000110 (fill 0)) = .ok (.perm 49 (fill 0)) := by decide
/-- R82, V31: `READ` with `len` 255 is `0x3ff`. -/
theorem test_decode_read : decode (.cmd 0b1111111111 (fill 0)) = .ok (.read 255 (fill 0)) := by decide
/-- R89: `idx = 000`, `kind = 00`. -/
theorem test_decode_spbox : decode (.uop 0b00000) = .ok .spbox := by decide
/-- R89: `idx = 000`, `kind = 01`. -/
theorem test_decode_sswap : decode (.uop 0b00001) = .ok .sswap := by decide
/-- R89: `idx = 000`, `kind = 10`. -/
theorem test_decode_bswap : decode (.uop 0b00010) = .ok .bswap := by decide
/-- R91: slot 37 holds `ADDRC 5`, `10111`. -/
theorem test_decode_addrc : decode (.uop 0b10111) = .ok (.addrc 5) := by decide
/-- R90: the two reserved `ADDRC` words and a word with `kind ≠ 11`, `idx ≠ 0`. -/
theorem test_decode_reserved :
    decode (.uop 0x1b) = .error (.reservedUop 0x1b) ∧
    decode (.uop 0x1f) = .error (.reservedUop 0x1f) ∧
    decode (.uop 0x04) = .error (.reservedUop 0x04) := by decide
/-- R95: `LOAD 47` encodes to `0x0bd`; R89: `ADDRC 2` to `0x0b`. -/
theorem test_encode_words :
    encode (.load 47 (fill 1)) = .cmd 0x0bd (fill 1) ∧ encode (.addrc 2) = .uop 0x0b := by decide
/-- The opcode table's rows by width: 5 bits a uop, 10 bits a command. -/
theorem test_decodeTableWord :
    decodeTableWord 8 0x02 = some .bswap ∧ decodeTableWord 16 0x002 = some (.perm 0 (fill 0)) ∧
    decodeTableWord 8 0x1f = none := by decide

/-! ### The operations against the spec's vectors -/

/-- V2. -/
theorem test_rotl32 :
    rotl32 0x12345678 24 = 0x78123456 ∧ rotl32 0x12345678 9 = 0x68acf024 ∧
    rotl32 0x80000001 9 = 0x00000300 ∧ rotl32 0x80000001 24 = 0x01800000 := by decide
/-- V3. -/
theorem test_shl32 :
    shl32 0x80000000 1 = 0 ∧ shl32 0xc0000001 2 = 4 ∧ shl32 0xe0000001 3 = 8 := by decide
/-- V4: `unpack`, byte 0 lowest in `A[0]`, byte 47 highest in `C[3]`. -/
theorem test_unpack : unpack countBytes = countLanes := by decide
/-- V4 and back. -/
theorem test_pack : pack countLanes = countBytes := by decide
/-- R53: bit 0 of byte 1 is wire 8; bits 0 and 7 of byte 47 (`2f`) are wires 376 and 383. -/
theorem test_bus :
    (toBus countBytes).getLsbD 8 = true ∧ (toBus countBytes).getLsbD 376 = true ∧
    (toBus countBytes).getLsbD 383 = false := by
  rw [getLsbD_toBus _ 8 (by decide), getLsbD_toBus _ 376 (by decide),
    getLsbD_toBus _ 383 (by decide)]
  decide
/-- R54: two bytes across the boundary of `A[3]` and `B[0]`; the last byte; nothing beyond it. -/
theorem test_memRead :
    memRead 15 2 countLanes = some [0x0f, 0x10] ∧ memRead 47 1 countLanes = some [0x2f] ∧
    memRead 47 2 countLanes = none := by decide
/-- R54: a write across that boundary, seen in both lanes. -/
theorem test_memWrite :
    (memWrite 15 [0xaa, 0xbb] countLanes).map (fun l => (l.A.w3, l.B.w0)) =
      some (0xaa0e0d0c, 0x131211bb) := by decide
/-- V12, V16, V17, V18. -/
theorem test_sp :
    sp ⟨0xffffffff, 0xffffffff, 0xffffffff⟩ = ⟨0xfffffff8, 0xfffffffe, 0xfffffffd⟩ ∧
    sp ⟨0x00000080, 0x00400000, 0xc0000000⟩ = ⟨0x40000000, 0x80000000, 0x00000000⟩ ∧
    sp ⟨0x12345678, 0x9abcdef0, 0x0fedcba9⟩ = ⟨0xb6d12a3c, 0xfe502a9d, 0x417ea780⟩ ∧
    sp ⟨0xdeadbeef, 0xcafebabe, 0x01234567⟩ = ⟨0x96f75452, 0xcd540bd5, 0xe91d3364⟩ := by decide
/-- V20: `P` of the zero State, as words. -/
theorem test_permute_zero :
    permuteLanes Lanes.zero =
      ⟨⟨0x6467d8c4, 0x07dcf83b, 0x3b0bb0d4, 0x1b21364c⟩,
       ⟨0x083431dc, 0x0efbbe8e, 0x0054e884, 0x648bd955⟩,
       ⟨0x4a5db42e, 0xca0641cb, 0x8673d2c2, 0x2e30d809⟩⟩ := by decide
/-- V23: `P` of `countLanes`, as words. -/
theorem test_permute_count :
    permuteLanes countLanes =
      ⟨⟨0xf721d852, 0xe819ddb6, 0x391b6125, 0x7b99833d⟩,
       ⟨0x89a0c9c3, 0xbb14afe2, 0x65c57a1a, 0x9d5cbdf0⟩,
       ⟨0x1bfce925, 0xfd2eaefa, 0x36cca894, 0xf1ec15af⟩⟩ := by decide

/-! ### One step of every instruction -/

/-- V31: `CLR` with `len` 47 answers OK with the zero State. -/
theorem test_step_clr :
    after (step (loaded [offered 0x0bc (fill 0xaa)])) (fun t => (t.lanes, t.rsp, t.inputs)) =
      some (Lanes.zero, some ⟨false, none⟩, []) := by decide
/-- V4, V31: `LOAD 48`. -/
theorem test_step_load :
    after (step { State.reset with inputs := [offered 0x0c1 countBytes] })
      (fun t => (t.lanes, t.rsp)) = some (countLanes, some ⟨false, none⟩) := by decide
/-- V31: `LOAD 176` fails, since all 8 bits of `len` are compared, and keeps the State. -/
theorem test_step_load_invalid :
    after (step (loaded [offered 0x2c1 (fill 0xaa)])) (fun t => (t.lanes, t.rsp)) =
      some (countLanes, some ⟨true, none⟩) := by decide
/-- P2: `READ` answers `00 01 02 ... 2f`. -/
theorem test_step_read :
    after (step (loaded [offered 0x003 (fill 0)])) (fun t => (t.lanes, t.rsp)) =
      some (countLanes, some ⟨false, some countBytes⟩) := by decide
/-- R177: `PERM` starts at slot 0, with no response. -/
theorem test_step_perm :
    after (step (loaded [offered 0x002 (fill 0)])) (fun t => (t.busy, t.pc, t.lanes, t.rsp)) =
      some (true, 0, countLanes, none) := by decide
/-- T2, slot 0. -/
theorem test_step_spbox :
    after (step (running 0 [])) (fun t => (t.pc, t.lanes)) =
      some (1,
        ⟨⟨0x07100106, 0x2b1c0d2a, 0x1f08191e, 0x73445572⟩,
         ⟨0x62676465, 0x66636061, 0x6a6f6c6d, 0x6e6b6869⟩,
         ⟨0xc6cfc0c1, 0xdac3ccdd, 0xded7d8d9, 0xe2fbf4e5⟩⟩) := by decide
/-- R170, slot 1: pairs of `A` exchanged. -/
theorem test_step_sswap :
    after (step (running 1 [])) (fun t => (t.pc, t.lanes.A, t.lanes.B)) =
      some (2, ⟨0x07060504, 0x03020100, 0x0f0e0d0c, 0x0b0a0908⟩, countLanes.B) := by decide
/-- R172, slot 5: halves of `A` exchanged. -/
theorem test_step_bswap :
    after (step (running 5 [])) (fun t => (t.pc, t.lanes.A, t.lanes.C)) =
      some (6, ⟨0x0b0a0908, 0x0f0e0d0c, 0x03020100, 0x07060504⟩, countLanes.C) := by decide
/-- T2, slot 2: `2b1c0d2a XOR RC[0]` is `b52b7432`. -/
theorem test_exec_addrc :
    after (exec (.addrc 0) { State.reset with lanes := ⟨⟨0x2b1c0d2a, 1, 2, 3⟩, Row.zero, Row.zero⟩ })
      (fun t => t.lanes.A) = some ⟨0xb52b7432, 1, 2, 3⟩ := by decide
/-- V30: `ADDRC 0` on all ones shows XOR, not addition. -/
theorem test_exec_addrc_is_xor :
    after (exec (.addrc 0) { State.reset with lanes := ⟨⟨0xffffffff, 0, 0, 0⟩, Row.zero, Row.zero⟩ })
      (fun t => t.lanes.A.w0) = some 0x61c886e7 := by decide
/-- R176: slot 41 ends the `PERM` with its response. -/
theorem test_step_last_slot :
    after (step (running 41 [])) (fun t => (t.busy, t.pc, t.rsp)) =
      some (false, 0, some ⟨false, none⟩) := by decide
/-- P5, R241: a reset edge at `pc = 17`, although a command is offered at it. -/
theorem test_step_reset :
    after (step (running 17 [resetting])) (fun t => (t.lanes, t.busy, t.pc, t.rsp)) =
      some (Lanes.zero, false, 0, none) := by decide
/-- R245: a `READ` offered while busy waits. -/
theorem test_step_offer_waits :
    after (step (running 1 [offered 0x003 (fill 0)])) (fun t => (t.busy, t.rsp)) =
      some (true, none) := by decide
/-- The placed word is what the next step runs: `ADDRC 0` (V30), `LOAD 0` (V31). -/
theorem test_withFetchWord :
    after (step (State.reset.withFetchWord 8 0x03)) (fun t => t.lanes.A.w0) = some 0x9e377918 ∧
    after (step (State.reset.withFetchWord 16 0x001)) (fun t => t.rsp) = some (some ⟨true, none⟩) := by
  decide

/-! ### Every hypothesis can be met -/

/-- `loaded` is a legal state. -/
theorem loaded_legal (ins : List Pins) : (loaded ins).Inv :=
  ⟨rfl, rfl, rfl, by simp [loaded, State.reset], by simp [loaded, State.reset],
    by simp [loaded, State.reset], by simp [loaded, State.reset]⟩

/-- `running` at a slot is a legal state. -/
theorem running_legal (pc : BitVec 6) (ins : List Pins) (h : pc.toNat < 42) : (running pc ins).Inv :=
  ⟨rfl, rfl, rfl, fun _ => h, by simp [running], by simp [running, State.reset],
    by simp [running, State.reset]⟩

theorem witness_DecodeInvertsEncode :
    (Instr.addrc 5).wf = true ∧ (Instr.addrc 0).wf = true ∧ (Instr.load 255 (fill 0)).wf = true := by
  decide
theorem witness_EncodeInvertsDecode :
    decode (.uop 0x17) = .ok (.addrc 5) ∧ decode (.cmd 0x3fd (fill 0)) = .ok (.load 255 (fill 0)) := by
  decide
theorem witness_EveryCommandWordIsLegal :
    (47 : BitVec 8) ≠ 48 ∧ (49 : BitVec 8) ≠ 48 ∧
    lineInstr .clr = some (.clr 0 (fill 0)) ∧ lineInstr .perm = some (.perm 0 (fill 0)) ∧
    lineInstr .read = some (.read 0 (fill 0)) := by decide
theorem witness_ReservedUopWordsAreUnreachable :
    (running 41 []).Inv ∧ (0x00 : BitVec 5) ∈ scheduleRom.toList ∧
    decode (.cmd 0x002 (fill 0)) = .ok (.perm 0 (fill 0)) ∧
    step (loaded []) = .next (nextCycle (loaded [])) :=
  ⟨running_legal 41 [] (by decide), by decide, by decide, rfl⟩
theorem witness_RoundConstantsMatchTheFormula :
    step (loaded []) = .next (nextCycle (loaded [])) := rfl
theorem witness_MemoryPrimitives_inside :
    47 + 1 ≤ 48 ∧ 0 + [0xaa, 0xbb].length ≤ 48 ∧ (47 : Fin 48).val = 47 + 0 ∧
      (2 : Fin 48).val ≥ 0 + [0xaa, 0xbb].length := by
  decide
theorem witness_MemoryPrimitives_beyond : 48 < 47 + 2 ∧ 48 < 48 + [(0xaa : Byte)].length := by decide
/-- Of AcceptedOnlyWhenIdle, for the four operations. -/
theorem witness_AcceptedOnlyWhenIdle :
    (∀ word, (loaded [offered word (fill 0)]).Inv) ∧
    stepEvent (loaded [offered 0x000 (fill 0)]) = .accept 0x000 (fill 0) ∧ cmdOp 0x000 = 0b00 ∧
    stepEvent (loaded [offered 0x0c1 (fill 0)]) = .accept 0x0c1 (fill 0) ∧ cmdOp 0x0c1 = 0b01 ∧
    stepEvent (loaded [offered 0x002 (fill 0)]) = .accept 0x002 (fill 0) ∧ cmdOp 0x002 = 0b10 ∧
    stepEvent (loaded [offered 0x003 (fill 0)]) = .accept 0x003 (fill 0) ∧ cmdOp 0x003 = 0b11 :=
  ⟨fun _ => loaded_legal _, by decide, by decide, by decide, by decide, by decide, by decide,
    by decide, by decide⟩
theorem witness_ReadAnswersTheByteView :
    (setLanes Lanes.zero (loaded [])).lanes = State.reset.lanes := rfl
theorem witness_LoadStoresFortyEightBytesOrNone :
    (48 : BitVec 8).toNat = 48 ∧ ¬ (47 : BitVec 8).toNat = 48 ∧ ¬ (49 : BitVec 8).toNat = 48 := by
  decide
theorem witness_ReadLoadClrAreIdempotentPermIsNot :
    (∃ t u, exec (.read 0 (fill 0)) (loaded []) = .next t ∧ exec (.read 0 (fill 0)) t = .next u) ∧
    (∃ t u, exec (.load 48 (fill 1)) (loaded []) = .next t ∧ exec (.load 48 (fill 1)) t = .next u) ∧
    (∃ t u, exec (.clr 0 (fill 0)) (loaded []) = .next t ∧ exec (.clr 0 (fill 0)) t = .next u) :=
  ⟨⟨_, _, rfl, rfl⟩, ⟨_, _, rfl, rfl⟩, ⟨_, _, rfl, rfl⟩⟩
theorem witness_InvalidLengthIsRaisedByLoadOnly :
    stepEvent (loaded [offered 0x0bd (fill 0)]) = .accept 0x0bd (fill 0) ∧
    (after (step (loaded [offered 0x0bd (fill 0)])) (fun _ => ())) = some () ∧
    stepEvent (running 41 []) = .slot ∧
    (after (step (running 41 [])) (fun t => t.rsp)) = some (some ⟨false, none⟩) := by decide
/-- Of InvalidLengthChangesNothing and FailedLoadIsForgotten, at both neighbours of 48. -/
theorem witness_InvalidLengthChangesNothing :
    (loaded [offered 0x0bd (fill 0)]).Inv ∧ (loaded [offered 0x0bd (fill 0)]).busy = false ∧
    cmdOp 0x0bd = 0b01 ∧ (cmdLen 0x0bd).toNat ≠ 48 ∧ cmdOp 0x0c5 = 0b01 ∧
    (cmdLen 0x0c5).toNat ≠ 48 ∧
    (after (step (loaded [offered 0x0bd (fill 0)])) (fun t => (currentPins t).rst)) = some false :=
  ⟨loaded_legal _, by decide, by decide, by decide, by decide, by decide, by decide⟩
theorem witness_RotateMovesBitsAround : (1 ≤ 1 ∧ 1 ≤ 31 ∧ 0 < 32) ∧ (1 ≤ 31 ∧ 31 ≤ 31 ∧ 31 < 32) := by
  decide
theorem witness_ShiftDiscardsHighBits : (1 ≤ 1 ∧ 1 ≤ 3) ∧ (1 ≤ 3 ∧ 3 ≤ 3) := by decide
theorem witness_SpboxMixesTheFourColumns :
    (running 0 [] |> setLanes Lanes.zero).lanes = Lanes.zero := rfl
/-- The lanes of `countBytes` with every lane of `B` and `C` outside column 2 zero. -/
def onlyColumnTwo : State :=
  setLanes ⟨countLanes.A, ⟨0, 0, 0x1b1a1918, 0⟩, ⟨0, 0, 0x2b2a2928, 0⟩⟩ (loaded [])
/-- Two states that differ in the other columns of `B` and `C` only. -/
theorem witness_UopsKeepBAndCInTheirColumns :
    Instr.spbox.format = .uop ∧ column (loaded []).lanes 2 = column onlyColumnTwo.lanes 2 ∧
    (loaded []).lanes ≠ onlyColumnTwo.lanes ∧
    (∃ t t', exec .spbox (loaded []) = .next t ∧ exec .spbox onlyColumnTwo = .next t') ∧
    (Instr.addrc 5).format = .uop ∧ Instr.addrc 5 ≠ .spbox ∧
    (loaded []).lanes.A = onlyColumnTwo.lanes.A ∧ (loaded []).rc = onlyColumnTwo.rc ∧
    (∃ t t', exec (.addrc 5) (loaded []) = .next t ∧ exec (.addrc 5) onlyColumnTwo = .next t') :=
  ⟨rfl, by decide, by decide, ⟨_, _, rfl, rfl⟩, rfl, by decide, rfl, rfl, ⟨_, _, rfl, rfl⟩⟩
/-- Boundary bytes of the frames: 16 and 47 beside `A`, 4 and 47 beside `A[0]`. -/
theorem witness_frames :
    16 ≤ (16 : Fin 48).val ∧ 16 ≤ (47 : Fin 48).val ∧ 4 ≤ (4 : Fin 48).val ∧ 4 ≤ (47 : Fin 48).val := by
  decide
/-- A first slot and the last one. -/
theorem witness_SlotRunsTheDecodedUop :
    (running 0 []).resetDone = true ∧ (running 0 []).busy = true ∧
    (currentPins (running 0 [])).rst = false ∧
    (running 0 []).rom[(running 0 []).pc.toNat]? = some 0x00 ∧ decode (.uop 0x00) = .ok .spbox ∧
    (running 37 []).rom[(running 37 []).pc.toNat]? = some 0x17 ∧
    decode (.uop 0x17) = .ok (.addrc 5) ∧
    (running 41 []).rom[(running 41 []).pc.toNat]? = some 0x00 := by decide
theorem witness_AcceptedCommandIsExecuted :
    (loaded [offered 0x0c1 countBytes]).resetDone = true ∧
    (loaded [offered 0x0c1 countBytes]).busy = false ∧
    (loaded [offered 0x0c1 countBytes]).inputs = [⟨false, true, 0x0c1, countBytes⟩] ∧
    decode (.cmd 0x0c1 countBytes) = .ok (.load 48 countBytes) := by decide
/-- Slots 40 and 41, on either side of the end; an idle engine, ready or held in reset. -/
theorem witness_SchedulerStepCountsTheSlots :
    (loaded []).busy = false ∧ (loaded [resetting]).busy = false ∧
    (running 40 []).Inv ∧ (running 41 []).Inv ∧
    (running 41 []).busy = true ∧ (currentPins (running 41 [])).rst = false :=
  ⟨rfl, rfl, running_legal 40 [] (by decide), running_legal 41 [] (by decide), rfl, rfl⟩
theorem witness_SlotOutsideTheRomFaults :
    (running 42 []).resetDone = true ∧ (running 42 []).busy = true ∧
    (currentPins (running 42 [])).rst = false ∧ 42 ≤ (running 42 []).pc.toNat ∧
    42 ≤ (running 63 []).pc.toNat := by decide
/-- Nothing offered; and an offer to a busy engine. -/
theorem witness_UnacceptedCommandHasNoEffect :
    (loaded [Pins.idle]).inputs = [Pins.idle] ∧ Pins.idle.cmdValid = false ∧
    (running 3 [offered 0x000 (fill 0)]).inputs = [offered 0x000 (fill 0)] ∧
    cmdReady (running 3 [offered 0x000 (fill 0)]) = false := by decide
theorem witness_CommandIsAcceptedWhenReady :
    (loaded [offered 0x003 (fill 0)]).resetDone = true ∧
    stepEvent (loaded [offered 0x003 (fill 0)]) = .accept 0x003 (fill 0) ∧
    (running 3 [offered 0x003 (fill 0)]).resetDone = true ∧
    (running 3 [offered 0x003 (fill 0)]).busy = true ∧
    (running 3 [offered 0x003 (fill 0)]).inputs = [offered 0x003 (fill 0)] := by decide
theorem witness_IdleEngineHoldsItsState :
    Ready (loaded []) ∧ (currentPins (loaded [])).cmdValid = false := ⟨⟨rfl, rfl, rfl⟩, rfl⟩
/-- A `READ` accepted, the last slot, and a slot that stays busy. -/
theorem witness_ResponseAppearsExactlyOnCompletion :
    (loaded [offered 0x003 (fill 0)]).Inv ∧
    (after (step (loaded [offered 0x003 (fill 0)])) (fun t => t.rsp.isSome)) = some true ∧
    (running 41 []).Inv ∧ (after (step (running 41 [])) (fun t => t.rsp.isSome)) = some true ∧
    (running 0 []).Inv ∧ (after (step (running 0 [])) (fun t => t.busy)) = some true :=
  ⟨loaded_legal _, by decide, running_legal 41 [] (by decide), by decide,
    running_legal 0 [] (by decide), by decide⟩
theorem witness_OutputPortsShowReadyAndResponse :
    (loaded []).resetDone = true ∧
    (respond false (some countBytes) (loaded [])).rsp = some ⟨false, some countBytes⟩ := by decide
theorem witness_BusyPortsHideTheLanes : (running 17 []).Inv ∧ (running 17 []).busy = true :=
  ⟨running_legal 17 [] (by decide), rfl⟩
/-- Two legal states with the same control view and other lanes and payloads. -/
theorem witness_ControlIsIndependentOfData :
    (running 3 [offered 0x001 (fill 0)]).Inv ∧
    (setLanes Lanes.zero (running 3 [offered 0x001 (fill 1)])).Inv ∧
    controlView (running 3 [offered 0x001 (fill 0)]) =
      controlView (setLanes Lanes.zero (running 3 [offered 0x001 (fill 1)])) ∧
    (∃ t, Sys2Proof.core.run 1 (running 3 [offered 0x001 (fill 0)]) = .next t) :=
  ⟨running_legal 3 _ (by decide),
    ⟨rfl, rfl, rfl, fun _ => by decide, by simp [running], by simp [running, State.reset],
      by simp [running, State.reset]⟩,
    by decide, ⟨_, rfl⟩⟩
/-- The first and the last big round. -/
theorem witness_SevenSlotsAreOneBigRound :
    (running 0 []).Inv ∧ (running 0 []).busy = true ∧ (running 0 []).pc.toNat = 7 * (0 : Fin 6).val ∧
    (∀ p ∈ (running 0 []).inputs.take 7, p.rst = false) ∧
    (running 35 []).Inv ∧ (running 35 []).pc.toNat = 7 * (5 : Fin 6).val :=
  ⟨running_legal 0 [] (by decide), rfl, rfl, by decide, running_legal 35 [] (by decide), rfl⟩
theorem witness_PermComputesThePermutation :
    (loaded [offered 0x002 (fill 0)]).Inv ∧ (loaded [offered 0x002 (fill 0)]).busy = false ∧
    (loaded [offered 0x002 (fill 0)]).inputs = [⟨false, true, 0x002, fill 0⟩] ∧
    cmdOp 0x002 = 0b10 ∧ (∀ p ∈ ([] : List Pins).take 42, p.rst = false) :=
  ⟨loaded_legal _, rfl, rfl, by decide, by decide⟩
theorem witness_PermNComputesThePowerOfP :
    (loaded (scriptSamples (expandPseudo (.permN 2)))).Inv ∧
    (loaded (scriptSamples (expandPseudo (.permN 2)))).busy = false ∧
    (loaded (scriptSamples (expandPseudo (.permN 2)))).inputs =
      scriptSamples (expandPseudo (.permN 2)) ++ [] :=
  ⟨loaded_legal _, rfl, by simp [loaded]⟩
theorem witness_ResetEdgesZeroTheEngine :
    [resetting, resetting].length = 1 + 1 ∧ (∀ p ∈ [resetting, resetting], p.rst = true) ∧
    (running 17 [resetting, resetting]).inputs = [resetting, resetting] ++ [] := by decide
/-- At slot 41, whose response is dropped. -/
theorem witness_ResetAbandonsAPerm :
    (running 41 [resetting]).Inv ∧ (running 41 [resetting]).busy = true ∧
    (running 41 [resetting]).inputs = [resetting] ∧ resetting.rst = true ∧
    (∀ q ∈ ([] : List Pins), q.cmdValid = false) :=
  ⟨running_legal 41 _ (by decide), rfl, rfl, rfl, by decide⟩
theorem witness_NothingRunsBeforeTheFirstReset :
    (poweredOn [offered 0x003 (fill 0)]).resetDone = false ∧
    (currentPins (poweredOn [offered 0x003 (fill 0)])).rst = false ∧
    (currentPins (poweredOn [offered 0x003 (fill 0)])).cmdValid = true ∧
    (currentPins (poweredOn [])).cmdValid = false := by decide
theorem witness_OneResetEdgeIsEnoughToBoot :
    (poweredOn [resetting]).rom = scheduleRom ∧ (poweredOn [resetting]).rc = roundConstants ∧
    (currentPins (poweredOn [resetting])).rst = true ∧
    (after (step (poweredOn [resetting])) (fun t => (currentPins t).rst)) = some false := by decide
/-- Of StepKeepsTheInvariant and LegalStatesNeverStop. -/
theorem witness_StepKeepsTheInvariant :
    (loaded []).Inv ∧ step (loaded []) = .next (nextCycle (loaded [])) :=
  ⟨loaded_legal [], rfl⟩

end Sys2Proof.Tests
end

section
/-!
SUPPORT. The byte view of the lanes and the wires of a bus: which bit of which lane a byte or a wire is
(R51, R53).
-/

namespace Sys2Proof.Machine

/-- Bit `i` of `byte[k]` is bit `8r + i` of lane `k div 4`, `r = k mod 4` (R51). -/
theorem getLsbD_byteAt (l : Lanes) (k : Fin 48) {i : Nat} (hi : i < 8) :
    (byteAt l k).getLsbD i = (laneAt l ⟨k.val / 4, by omega⟩).getLsbD (8 * (k.val % 4) + i) := by
  simp [byteAt, byteOfLane, hi]

/-- Four bytes of the view in a row are a lane (R51). -/
theorem laneAt_eq_laneOfBytes (l : Lanes) (m : Fin 12) :
    laneAt l m = laneOfBytes (byteAt l ⟨4 * m.val, by omega⟩) (byteAt l ⟨4 * m.val + 1, by omega⟩)
      (byteAt l ⟨4 * m.val + 2, by omega⟩) (byteAt l ⟨4 * m.val + 3, by omega⟩) :=
  calc laneAt l m
    _ = laneAt (lanesOfBytes (byteAt l)) m := by rw [lanesOfBytes_byteAt]
    _ = _ := by rw [lanesOfBytes, laneAt_lanesOf]

/-- The flat lanes are the lanes of `A`, then of `B`, then of `C` (R9, R21). -/
theorem laneAt_eq_rowLane (l : Lanes) (j : Fin 4) :
    laneAt l ⟨j.val, by omega⟩ = rowLane l.A j ∧ laneAt l ⟨4 + j.val, by omega⟩ = rowLane l.B j ∧
      laneAt l ⟨8 + j.val, by omega⟩ = rowLane l.C j := by
  fin_cases j <;> exact ⟨rfl, rfl, rfl⟩

@[simp] theorem getElem_pack (l : Lanes) (k : Nat) (hk : k < 48) : (pack l)[k] = byteAt l ⟨k, hk⟩ := by
  simp [pack]

@[simp] theorem getElem_ofBus (b : Bus) (k : Nat) (hk : k < 48) :
    (ofBus b)[k] = b.extractLsb' (8 * k) 8 := by
  simp [ofBus]

/-- Bits `[8k+7:8k]` of a bus are byte `k` (R53). -/
theorem extractLsb'_toBus (v : Bytes48) (k : Nat) (hk : k < 48) :
    (toBus v).extractLsb' (8 * k) 8 = v[k] := by
  apply BitVec.eq_of_getLsbD_eq
  intro i hi
  have hdiv : (8 * k + i) / 8 = k := by omega
  have hmod : (8 * k + i) % 8 = i := by omega
  simp only [BitVec.getLsbD_extractLsb', hi, decide_true, Bool.true_and,
    getLsbD_toBus v (8 * k + i) (by omega), hdiv, hmod]

/-- Wire `i` of the packed lanes is bit `i mod 32` of lane `i div 32` (R51, R53). -/
theorem getLsbD_toBus_pack (l : Lanes) (i : Nat) (hi : i < 384) :
    (toBus (pack l)).getLsbD i = (laneAt l ⟨i / 32, by omega⟩).getLsbD (i % 32) := by
  have hlane : i / 8 / 4 = i / 32 := by omega
  have hbit : 8 * (i / 8 % 4) + i % 8 = i % 32 := by omega
  rw [getLsbD_toBus _ i hi, getElem_pack, getLsbD_byteAt _ _ (by omega)]
  simp only [hlane, hbit]

/-- Bits `[32m+31:32m]` of the packed lanes are lane `m` (R53). -/
theorem extractLsb'_toBus_pack (l : Lanes) (m : Fin 12) :
    (toBus (pack l)).extractLsb' (32 * m.val) 32 = laneAt l m := by
  apply BitVec.eq_of_getLsbD_eq
  intro i hi
  have hdiv : (32 * m.val + i) / 32 = m.val := by omega
  have hmod : (32 * m.val + i) % 32 = i := by omega
  simp only [BitVec.getLsbD_extractLsb', hi, decide_true, Bool.true_and,
    getLsbD_toBus_pack l (32 * m.val + i) (by omega), hdiv, hmod]

/-- The bytes read off the wires they were put on (R53). -/
@[simp] theorem ofBus_toBus (v : Bytes48) : ofBus (toBus v) = v := by
  apply Vector.ext
  intro k hk
  rw [getElem_ofBus, extractLsb'_toBus v k hk]

/-- The wires driven with the bytes read off them (R53). -/
@[simp] theorem toBus_ofBus (b : Bus) : toBus (ofBus b) = b := by
  apply BitVec.eq_of_getLsbD_eq
  intro i hi
  have hbyte : i % 8 < 8 := by omega
  have hwire : 8 * (i / 8) + i % 8 = i := by omega
  rw [getLsbD_toBus _ i hi, getElem_ofBus]
  simp only [BitVec.getLsbD_extractLsb', hbyte, decide_true, Bool.true_and, hwire]

end Sys2Proof.Machine
end

section
/-!
SUPPORT. The next state of each codec command (R125 to R127), and what `LOAD` leaves in the lanes.
-/

namespace Sys2Proof.Machine

theorem exec_clr (len : BitVec 8) (wdata : Bytes48) (s : State) :
    exec (.clr len wdata) s = .next (respond false none (setLanes Lanes.zero s)) := rfl

theorem exec_read (len : BitVec 8) (wdata : Bytes48) (s : State) :
    exec (.read len wdata) s = .next (respond false (some (pack s.lanes)) s) := rfl

theorem exec_load_of_valid {len : BitVec 8} (h : lengthValid len = true) (wdata : Bytes48)
    (s : State) :
    exec (.load len wdata) s = .next (respond false none (setLanes (unpack wdata) s)) := by
  rw [exec, execLoad, if_pos h]

theorem exec_load_of_invalid {len : BitVec 8} (h : lengthValid len = false) (wdata : Bytes48)
    (s : State) :
    exec (.load len wdata) s = .next (raiseInvalidLength (lengthOperand len) s) := by
  rw [exec, execLoad, if_neg (by simp [h])]

/-- A `LOAD` leaves its payload in the lanes, or the lanes as they were (R126). -/
theorem lanes_of_exec_load {len : BitVec 8} {wdata : Bytes48} {s t : State}
    (h : exec (.load len wdata) s = .next t) :
    t.lanes = if lengthValid len then unpack wdata else s.lanes := by
  cases hv : lengthValid len with
  | true => rw [exec_load_of_valid hv] at h; cases h; simp
  | false => rw [exec_load_of_invalid hv] at h; cases h; simp

/-- The zero State is one on which a second permutation makes a difference: the first one gives the words
of V20, which `P` does not fix (R57). -/
theorem permuteLanes_twice_zero_ne :
    permuteLanes (permuteLanes Lanes.zero) ≠ permuteLanes Lanes.zero := by
  have once : permuteLanes Lanes.zero =
      ⟨⟨0x6467d8c4, 0x07dcf83b, 0x3b0bb0d4, 0x1b21364c⟩,
       ⟨0x083431dc, 0x0efbbe8e, 0x0054e884, 0x648bd955⟩,
       ⟨0x4a5db42e, 0xca0641cb, 0x8673d2c2, 0x2e30d809⟩⟩ := by decide
  rw [once]
  decide

end Sys2Proof.Machine
end

section
/-!
PROOFS. The statements about the byte view, the bus and the repetition of commands.
-/

namespace Sys2Proof.Machine

/-- Settles O10: the first part is the byte view's definition, the second puts the four bytes of a lane
together again. -/
theorem byteViewIsLittleEndian : Obligations.ByteViewIsLittleEndian := by
  unfold Obligations.ByteViewIsLittleEndian
  intro l
  refine ⟨fun _ => rfl, fun m => ?_, laneAt_eq_rowLane l⟩
  rw [laneAt_eq_laneOfBytes l m, laneOfBytes_toNat]

/-- Settles O13, wire by wire. -/
theorem busCarriesByteKAtBitEightK : Obligations.BusCarriesByteKAtBitEightK :=
  ⟨fun v k => extractLsb'_toBus v k.val k.isLt, extractLsb'_toBus_pack, ofBus_toBus,
    toBus_ofBus⟩

/-- Settles O19: `READ` writes no lane, what `CLR` and `LOAD` write depends on the command alone, and the
zero State shows that `PERM` is not idempotent. -/
theorem readLoadClrAreIdempotentPermIsNot : Obligations.ReadLoadClrAreIdempotentPermIsNot := by
  unfold Obligations.ReadLoadClrAreIdempotentPermIsNot
  refine ⟨?read, ?load, ?clr, Lanes.zero, permuteLanes_twice_zero_ne⟩
  case read =>
    intro len d s t u hst htu
    rw [exec_read] at hst htu
    cases hst
    cases htu
    simp
  case load =>
    intro len d s t u hst htu
    have ht := lanes_of_exec_load hst
    rw [lanes_of_exec_load htu, ht]
    split <;> rfl
  case clr =>
    intro len d s t u hst htu
    rw [exec_clr] at hst htu
    cases hst
    cases htu
    simp

end Sys2Proof.Machine
end

section
/-!
SUPPORT. What no step writes, what a step reads of the ports, and why a legal state never stops: the
constant stores (R29, R30), commands that are not accepted (R86), and the reserved uop words (R90).
-/

namespace Sys2Proof.Machine

/-! ### The constant stores -/

/-- A scheduler step writes neither the constant store nor the ROM (R29, R30). -/
theorem schedulerStep_keeps_stores {s t : State} (h : schedulerStep s = .next t) :
    t.rc = s.rc ∧ t.rom = s.rom := by
  obtain ⟨_, _, u, -, -, hu, rfl⟩ := schedulerStep_next h
  obtain ⟨hrc, hrom, -⟩ := exec_leaves hu
  simp [hrc, hrom]

/-- No step writes the constant store or the ROM (R29, R30). -/
theorem step_keeps_stores {s t : State} (h : step s = .next t) : t.rc = s.rc ∧ t.rom = s.rom := by
  obtain ⟨-, rfl⟩ | ⟨word, wdata, -, hexec⟩ | ⟨-, hslot⟩ | ⟨-, rfl⟩ := step_next h
  · simp
  · obtain ⟨hrc, hrom, -⟩ := exec_leaves hexec
    simp [hrc, hrom]
  · exact schedulerStep_keeps_stores hslot
  · simp

/-! ### What a step reads -/

@[simp] theorem fetchSlot_nextCycle (s : State) : fetchSlot (nextCycle s) = fetchSlot s := rfl

/-- A step is fixed by the event and by the state with the host's sample used up. -/
theorem step_eq_of_stepEvent_eq {s t : State} (he : stepEvent s = stepEvent t)
    (hn : nextCycle s = nextCycle t) : step s = step t := by
  have hreset : resetEdge s = resetEdge t := congrArg resetRegisters hn
  have hfetch : fetchSlot s = fetchSlot t := by
    rw [← fetchSlot_nextCycle s, hn, fetchSlot_nextCycle]
  simp only [step, schedulerStep, he, hn, hreset, hfetch]

/-- The event depends on `cmd` and `cmd_wdata` only where a command is accepted (R86). -/
theorem stepEvent_of_unaccepted {s t : State} (hbusy : s.busy = t.busy)
    (hdone : s.resetDone = t.resetDone) (hrst : (currentPins s).rst = (currentPins t).rst)
    (hvalid : (currentPins s).cmdValid = (currentPins t).cmdValid)
    (hno : (currentPins t).cmdValid = false ∨ cmdReady t = false) : stepEvent s = stepEvent t := by
  have hready : cmdReady s = cmdReady t := by simp only [cmdReady, hbusy, hrst]
  simp only [stepEvent, hbusy, hdone, hrst, hvalid, hready]
  rcases hno with hno | hno <;> simp [hno]

/-! ### The reserved words -/

/-- The 23 reserved words, as R90 lists them. -/
def reservedUops : List (BitVec 5) :=
  [0x04, 0x05, 0x06, 0x08, 0x09, 0x0a, 0x0c, 0x0d, 0x0e, 0x10, 0x11, 0x12, 0x14, 0x15, 0x16,
   0x18, 0x19, 0x1a, 0x1c, 0x1d, 0x1e, 0x1b, 0x1f]

/-- The decoder refuses exactly the reserved words (R90). -/
theorem decodeUop_reserved_iff (word : BitVec 5) :
    decodeUop word = .error (.reservedUop word) ↔ word ∈ reservedUops := by
  revert word
  decide

/-- The decoder gives one reason only, and names the word it was given (R90). -/
theorem decodeUop_error {word : BitVec 5} {e : DecodeError} (h : decodeUop word = .error e) :
    e = .reservedUop word := by
  unfold decodeUop at h
  split at h
  · split at h <;> cases h
    rfl
  · split at h
    · cases h; rfl
    · split at h
      · cases h
      · split at h <;> cases h

/-- No slot of the ROM holds a reserved word (R90, R91). -/
theorem scheduleRom_not_reserved : ∀ word ∈ scheduleRom.toList, word ∉ reservedUops := by
  decide

/-- Every slot of the ROM decodes to a micro-operation that exists (R89, R91). -/
theorem decodeUop_scheduleRom {word : BitVec 5} (h : word ∈ scheduleRom.toList) :
    ∃ i, decodeUop word = .ok i ∧ i.format = .uop ∧ i.wf = true := by
  cases hd : decodeUop word with
  | error e =>
    obtain rfl := decodeUop_error hd
    exact absurd ((decodeUop_reserved_iff word).mp hd) (scheduleRom_not_reserved word h)
  | ok i => exact ⟨i, rfl, decodeUop_ok hd⟩

/-- A scheduler step on a word that decodes (R176). -/
theorem schedulerStep_of_decodeUop {s : State} {word : BitVec 5} {i : Instr}
    (hf : fetchSlot s = some word) (hd : decodeUop word = .ok i) :
    schedulerStep s = onNext advanceSlot (exec i (nextCycle s)) := by
  simp [schedulerStep, hf, decode, hd, runDecoded]

/-- A busy legal state has a word of the ROM at its slot (R26, R30). -/
theorem fetchSlot_of_inv {s : State} (h : s.Inv) (hb : s.busy = true) :
    ∃ word ∈ scheduleRom.toList, fetchSlot s = some word := by
  refine ⟨_, ?_, fetchSlot_of_lt (h.pcBusy hb)⟩
  rw [← h.rom]
  simp

/-- A scheduler step from a busy legal state answers a next state (R214). -/
theorem schedulerStep_answers {s : State} (h : s.Inv) (hb : s.busy = true) :
    ∃ t, schedulerStep s = .next t := by
  obtain ⟨word, hmem, hf⟩ := fetchSlot_of_inv h hb
  obtain ⟨i, hd, hformat, hwf⟩ := decodeUop_scheduleRom hmem
  obtain ⟨l, hl⟩ := exec_uop_answers hformat hwf (nextCycle s)
  exact ⟨advanceSlot (setLanes l (nextCycle s)), by
    rw [schedulerStep_of_decodeUop hf hd, hl, onNext]⟩

/-- A step from a legal state answers a next state (R214). -/
theorem canStep_of_inv {s : State} (h : s.Inv) : CanStep s := by
  unfold CanStep
  cases he : stepEvent s with
  | reset => exact ⟨_, step_of_reset he⟩
  | tooEarly =>
    obtain ⟨-, hd, -⟩ := of_stepEvent_tooEarly he
    rw [h.resetDone] at hd
    cases hd
  | accept word wdata =>
    rw [step_of_accept he]
    exact exec_cmd_answers (decodeCmd_format word wdata).1 _
  | slot =>
    obtain ⟨-, -, hb⟩ := of_stepEvent_slot he
    rw [step_of_slot he]
    exact schedulerStep_answers h hb
  | idle => exact ⟨_, step_of_idle he⟩

/-! ### The operands of a command -/

theorem exec_perm (len : BitVec 8) (wdata : Bytes48) (s : State) :
    exec (.perm len wdata) s = .next (setSequencer true 0 s) := rfl

/-- The length check fails for every `len` but 48 (R84, R85). -/
theorem lengthValid_eq_false {len : BitVec 8} (h : len ≠ 48) : lengthValid len = false := by
  rw [← Bool.not_eq_true, lengthValid_iff]
  exact fun hn => h (BitVec.eq_of_toNat_eq hn)

/-- Every `LOAD` answers, and with `InvalidLength` exactly when `len` is not 48 (R85, R126). -/
theorem exec_load_answers (len : BitVec 8) (wdata : Bytes48) (s : State) :
    ∃ t, exec (.load len wdata) s = .next t ∧ (t.rsp = some ⟨true, none⟩ ↔ len ≠ 48) := by
  by_cases hlen : len = 48
  · have hvalid : lengthValid len = true := by rw [hlen]; decide
    exact ⟨_, exec_load_of_valid hvalid wdata s, by simp [hlen]⟩
  · exact ⟨_, exec_load_of_invalid (lengthValid_eq_false hlen) wdata s, by simpa using hlen⟩

end Sys2Proof.Machine
end

section
/-!
PROOFS. The statements about the encoding: command words, reserved uop words, ports without an accepted
command, and the contents of the two constant stores.
-/

namespace Sys2Proof.Machine

/-- Settles O4: the opcode map of `op` has no gap, the meanings of `CLR`, `PERM`, `READ` and of a failed
`LOAD` do not name the ignored fields, and each script line but `LOAD` writes `len = 0`. -/
theorem everyCommandWordIsLegal : Obligations.EveryCommandWordIsLegal := by
  unfold Obligations.EveryCommandWordIsLegal
  refine ⟨?legal, ?ignored, ?failedLoad, exec_load_answers, ?assembler⟩
  case legal => exact fun word d => ⟨decodeCmd word d, rfl, decodeCmd_format word d⟩
  case ignored =>
    intro len len' d d' s
    simp only [exec_clr, exec_perm, exec_read, and_self]
  case failedLoad =>
    intro len d d' s hlen
    have hinvalid := lengthValid_eq_false hlen
    rw [exec_load_of_invalid hinvalid, exec_load_of_invalid hinvalid]
  case assembler =>
    intro line len d h
    cases line <;> simp [lineInstr] at h <;> exact h.1.symm

/-- Settles O5: a legal state takes every step, since its ROM holds no reserved word. -/
theorem reservedUopWordsAreUnreachable : Obligations.ReservedUopWordsAreUnreachable := by
  unfold Obligations.ReservedUopWordsAreUnreachable
  refine ⟨decodeUop_reserved_iff, scheduleRom_not_reserved, fun s t h => (step_keeps_stores h).2,
    ?port, ?met⟩
  case port =>
    intro word d i h
    cases h
    exact (decodeCmd_format word d).1
  case met =>
    intro s word h
    obtain ⟨t, ht⟩ := canStep_of_inv h
    simp [ht]

/-- Settles O36: the event is the same, and the sample that differs is used up. -/
theorem unacceptedCommandHasNoEffect : Obligations.UnacceptedCommandHasNoEffect := by
  unfold Obligations.UnacceptedCommandHasNoEffect
  intro s p rest word d hp hno
  have hpins : currentPins s = p := by simp [currentPins, hp]
  refine step_eq_of_stepEvent_eq
    (stepEvent_of_unaccepted rfl rfl ?rst ?valid (hno.imp_left (hpins ▸ ·))) ?used
  case rst => rw [hpins]; rfl
  case valid => rw [hpins]; rfl
  case used => simp [nextCycle, hp]

/-- Settles O6: the 42 slots, read off the ROM. -/
theorem scheduleRomHoldsSixBigRounds : Obligations.ScheduleRomHoldsSixBigRounds := by
  unfold Obligations.ScheduleRomHoldsSixBigRounds
  decide

/-- Settles O7: the six entries are compared one by one, and no step writes the store. -/
theorem roundConstantsMatchTheFormula : Obligations.RoundConstantsMatchTheFormula := by
  unfold Obligations.RoundConstantsMatchTheFormula
  exact ⟨rfl, by decide, fun s t h => (step_keeps_stores h).1⟩

end Sys2Proof.Machine
end

section
/-!
SUPPORT. The codec over the whole view (R54, R120 to R122): the lanes that `unpack` makes of 48 bytes, the
two memory primitives at address 0, and the round trips.
-/

namespace Sys2Proof.Machine

/-- The byte view of unpacked bytes is those bytes (R51, R120). -/
@[simp] theorem byteAt_unpack (v : Bytes48) (k : Fin 48) : byteAt (unpack v) k = v[k] := by
  rw [unpack, byteAt_lanesOfBytes]

/-- `pack` undoes `unpack` (R122). -/
@[simp] theorem pack_unpack (v : Bytes48) : pack (unpack v) = v := by
  apply Vector.ext
  intro k hk
  rw [getElem_pack, byteAt_unpack, Fin.getElem_fin]

/-- `unpack` undoes `pack` (R122). -/
@[simp] theorem unpack_pack (l : Lanes) : unpack (pack l) = l := by
  have hbytes : (fun k : Fin 48 => (pack l)[k]) = byteAt l :=
    funext fun k => getElem_pack l k.val k.isLt
  rw [unpack, hbytes, lanesOfBytes_byteAt]

/-- Lane `m` of unpacked bytes is the sum of the four bytes from `k = 4m` on, the first least significant
(R120). -/
theorem laneAt_unpack_toNat (v : Bytes48) (m : Fin 12) (k : Nat) (hk : k = 4 * m.val) :
    (laneAt (unpack v) m).toNat =
      v[k].toNat + 2 ^ 8 * v[k + 1].toNat + 2 ^ 16 * v[k + 2].toNat + 2 ^ 24 * v[k + 3].toNat := by
  subst hk
  rw [unpack, lanesOfBytes, laneAt_lanesOf, laneOfBytes_toNat]
  rfl

/-- Lane `m` of unpacked bytes is bits `[32m+31:32m]` of the bus that carries them (R53, R120). -/
theorem laneAt_unpack_eq_extractLsb' (v : Bytes48) (m : Fin 12) :
    laneAt (unpack v) m = (toBus v).extractLsb' (32 * m.val) 32 := by
  rw [← extractLsb'_toBus_pack, pack_unpack]

/-- `MemRead(0, 48)` is `pack` (R54, R121). -/
theorem memRead_whole (l : Lanes) : memRead 0 48 l = some (pack l).toList := by
  simp only [memRead, pack, Nat.zero_add, le_refl, dite_true, Vector.toList_ofFn]

/-- `MemWrite(0, 48, v)` is `unpack v`: no byte of the old lanes is left (R54, R120). -/
theorem memWrite_whole (v : Bytes48) (l : Lanes) : memWrite 0 v.toList l = some (unpack v) := by
  simp [memWrite, unpack]

/-! ### The zero State -/

@[simp] theorem laneAt_zero (m : Fin 12) : laneAt Lanes.zero m = 0 := by
  fin_cases m <;> rfl

@[simp] theorem byteAt_zero (k : Fin 48) : byteAt Lanes.zero k = 0 := by
  simp [byteAt, byteOfLane]

/-- The zero State packs to 48 bytes `00` (R25, R121). -/
@[simp] theorem pack_zero : pack Lanes.zero = Vector.replicate 48 0 := by
  apply Vector.ext
  intro k hk
  rw [getElem_pack, byteAt_zero, Vector.getElem_replicate]

/-! ### What every command keeps, and when it is accepted -/

/-- No instruction writes the stores or the host's side (R29, R30). -/
theorem keepsStoresAndHost_of_exec {i : Instr} {s t : State} (h : exec i s = .next t) :
    KeepsStoresAndHost s t := by
  obtain ⟨hrc, hrom, hdone, hinputs, htick⟩ := exec_leaves h
  exact ⟨hrc, hrom, hdone, hinputs, htick⟩

/-- The bytes are a view of the lanes, so equal lanes keep them too (R22). -/
theorem keepsMemory_of_lanes_eq {s t : State} (h : t.lanes = s.lanes) : KeepsMemory s t :=
  ⟨h, fun k => by rw [h]⟩

/-- The encoding of a command decodes to that command, its two fields included (R81, R82). -/
theorem decode_encode_of_cmd {i : Instr} (hi : i.format = .cmd) : decode (encode i) = .ok i := by
  cases i with
  | clr len wdata => simp [encode, decode, decodeCmd]
  | load len wdata => simp [encode, decode, decodeCmd]
  | perm len wdata => simp [encode, decode, decodeCmd]
  | read len wdata => simp [encode, decode, decodeCmd]
  | spbox => cases hi
  | sswap => cases hi
  | bswap => cases hi
  | addrc idx => cases hi

/-- Whatever its operation, a command is accepted by an idle engine only, whose `pc` is then 0 (R245). -/
theorem acceptedOnlyWhenIdle (op : BitVec 2) : AcceptedOnlyWhenIdle op := by
  intro s word d hinv haccept _
  obtain ⟨-, -, hbusy, -⟩ := of_stepEvent_accept haccept
  exact ⟨hbusy, hinv.pcIdle hbusy⟩

end Sys2Proof.Machine
end

section
/-!
PROOFS. The statements about the codec and the data-movement commands.
-/

namespace Sys2Proof.Machine

/-- Settles O11: lane `m` is made of bytes `4m` to `4m + 3`, and `A`, `B`, `C` are lanes 0 to 3, 4 to 7 and
8 to 11. -/
theorem unpackReadsLittleEndianLanes : Obligations.UnpackReadsLittleEndianLanes := by
  unfold Obligations.UnpackReadsLittleEndianLanes
  refine fun v => ⟨fun j => ?_, memWrite_whole v, laneAt_unpack_eq_extractLsb' v⟩
  obtain ⟨hA, hB, hC⟩ := laneAt_eq_rowLane (unpack v) j
  rw [← hA, ← hB, ← hC]
  exact ⟨laneAt_unpack_toNat v _ (4 * j.val) rfl,
    laneAt_unpack_toNat v _ (16 + 4 * j.val) (Nat.mul_add 4 4 j.val).symm,
    laneAt_unpack_toNat v _ (32 + 4 * j.val) (Nat.mul_add 4 8 j.val).symm⟩

/-- Settles O12: byte `4m + r` of the view is byte `r` of lane `m`, and each view determines the other. -/
theorem packAndUnpackAreInverse : Obligations.PackAndUnpackAreInverse := by
  unfold Obligations.PackAndUnpackAreInverse
  refine ⟨fun l m r => ?_, memRead_whole, pack_unpack, unpack_pack⟩
  have hlane : (4 * m.val + r.val) / 4 = m.val := by omega
  have hbyte : (4 * m.val + r.val) % 4 = r.val := by omega
  simp only [getElem_pack, byteAt, byteOfLane, hlane, hbyte]

/-- Settles O16: the length check decides between the two next states of a `LOAD`. -/
theorem loadStoresFortyEightBytesOrNone : Obligations.LoadStoresFortyEightBytesOrNone := by
  unfold Obligations.LoadStoresFortyEightBytesOrNone
  refine ⟨fun len d s => ?_, fun len d => decode_encode_of_cmd (i := .load len d) rfl,
    acceptedOnlyWhenIdle _⟩
  by_cases hlen : len.toNat = 48
  · have hexec := exec_load_of_valid ((lengthValid_iff len).mpr hlen) d s
    refine ⟨_, hexec, ?_, rfl, rfl, keepsStoresAndHost_of_exec hexec⟩
    rw [if_pos hlen]
    exact ⟨memWrite_whole d s.lanes, rfl, byteAt_unpack d, rfl, _, exec_read 0 d _, by simp⟩
  · have hne : len ≠ 48 := by
      rintro rfl
      exact hlen rfl
    have hexec := exec_load_of_invalid (lengthValid_eq_false hne) d s
    refine ⟨_, hexec, ?_, rfl, rfl, keepsStoresAndHost_of_exec hexec⟩
    rw [if_neg hlen]
    exact ⟨keepsMemory_of_lanes_eq rfl, rfl⟩

/-- Settles O17: the answer is `pack` of the lanes, which stay as they are. -/
theorem readAnswersTheByteView : Obligations.ReadAnswersTheByteView := by
  unfold Obligations.ReadAnswersTheByteView
  refine ⟨fun len d s => ?_, fun len d => decode_encode_of_cmd (i := .read len d) rfl,
    acceptedOnlyWhenIdle _⟩
  have hexec := exec_read len d s
  have hreset : s.lanes = State.reset.lanes → pack s.lanes = Vector.replicate 48 0 :=
    fun h => h ▸ pack_zero
  exact ⟨_, pack s.lanes, hexec, rfl, fun k => getElem_pack s.lanes k.val k.isLt,
    memRead_whole s.lanes, hreset, keepsMemory_of_lanes_eq rfl, rfl, rfl,
    keepsStoresAndHost_of_exec hexec⟩

/-- Settles O15: the lanes written are the zero State, whose bytes are 0. -/
theorem clrZeroesTheState : Obligations.ClrZeroesTheState := by
  unfold Obligations.ClrZeroesTheState
  refine ⟨fun len d s => ?_, fun len d => decode_encode_of_cmd (i := .clr len d) rfl,
    acceptedOnlyWhenIdle _⟩
  have hexec := exec_clr len d s
  exact ⟨_, hexec, laneAt_zero, byteAt_zero, rfl, rfl, rfl, rfl, keepsStoresAndHost_of_exec hexec,
    _, exec_read 0 d _, by simp⟩

end Sys2Proof.Machine
end

section
/-!
SUPPORT. The shift and the rotation of a lane bit by bit (R150, R151), the mixing step column by column
(R153 to R156), and the frame of a micro-operation (R23).
-/

namespace Sys2Proof.Machine

/-! ### Shift and rotation -/

/-- The shift multiplies and keeps the low 32 bits (R151). -/
theorem toNat_shl32 (v : Word) (n : Nat) : (shl32 v n).toNat = v.toNat * 2 ^ n % 2 ^ 32 := by
  rw [shl32, BitVec.toNat_shiftLeft, Nat.shiftLeft_eq]

/-- The shift moves bit `k - n` to bit `k`, with zeros below bit `n` (R151). -/
theorem getLsbD_shl32 (v : Word) (n : Nat) {k : Nat} (hk : k < 32) :
    (shl32 v n).getLsbD k = (decide (n ≤ k) && v.getLsbD (k - n)) := by
  rw [shl32, BitVec.getLsbD_shiftLeft, decide_eq_true hk, Bool.true_and, ← decide_not,
    decide_eq_decide.mpr Nat.not_lt]

/-- Below the lane width the document's rotation is core Lean's (R150). -/
theorem rotl32_eq_rotateLeft (v : Word) {n : Nat} (hn : n < 32) : rotl32 v n = v.rotateLeft n := by
  rw [rotl32, shl32, BitVec.rotateLeft_def, Nat.mod_eq_of_lt hn]

/-- Bit `k` of the rotation is bit `(k - n) mod 32` (R150). -/
theorem getLsbD_rotl32 (v : Word) {n k : Nat} (hn : n < 32) (hk : k < 32) :
    (rotl32 v n).getLsbD k = v.getLsbD ((k + 32 - n) % 32) := by
  rw [rotl32_eq_rotateLeft v hn, BitVec.getLsbD_rotateLeft_of_le hn]
  by_cases hwrap : k < n
  · have hbit : (k + 32 - n) % 32 = 32 - n + k := by omega
    simp [hwrap, hbit]
  · have hbit : (k + 32 - n) % 32 = k - n := by omega
    simp [hwrap, hbit, hk]

/-- The rotation by `n` puts the low `32 - n` bits above the high `n` bits (R150). -/
theorem rotl32_eq_low_append_high (v : Word) {m n : Nat} (hmn : m + n = 32) (hn : n < 32) :
    rotl32 v n = (v.extractLsb' 0 m ++ v.extractLsb' m n).cast hmn := by
  refine BitVec.eq_of_getLsbD_eq fun k hk => ?_
  rw [getLsbD_rotl32 v hn hk, BitVec.getLsbD_cast, BitVec.getLsbD_append,
    BitVec.getLsbD_extractLsb', BitVec.getLsbD_extractLsb']
  by_cases hhigh : k < n
  · have hbit : (k + 32 - n) % 32 = m + k := by omega
    simp [hhigh, hbit]
  · have hbit : (k + 32 - n) % 32 = k - n := by omega
    have hlow : k - n < m := by omega
    simp [hhigh, hbit, hlow]

/-! ### The mixing step -/

theorem exec_spbox (s : State) : exec .spbox s = .next (setLanes (mixLanes s.lanes) s) := rfl

/-- Each new column is `sp` of the old column (R154, R155). -/
@[simp] theorem column_mixLanes (l : Lanes) (j : Fin 4) : column (mixLanes l) j = sp (column l j) := by
  rw [mixLanes, column_lanesOfColumns]

/-- The zero State is a fixed point of the mixing step. -/
@[simp] theorem mixLanes_zero : mixLanes Lanes.zero = Lanes.zero := by decide

/-- Replacing the lanes writes nothing else (R23). -/
theorem keepsAllButLanes_setLanes (l : Lanes) (s : State) : KeepsAllButLanes s (setLanes l s) where
  rc := setLanes_rc l s
  rom := setLanes_rom l s
  resetDone := setLanes_resetDone l s
  inputs := setLanes_inputs l s
  tick := setLanes_tick l s
  busy := setLanes_busy l s
  pc := setLanes_pc l s
  rsp := setLanes_rsp l s

end Sys2Proof.Machine
end

section
/-!
PROOFS. The statements about the mixing step.
-/

namespace Sys2Proof.Machine

/-- Settles O23: the bit rule, and the slices for `32 = 8 + 24` and `32 = 23 + 9`. -/
theorem rotateMovesBitsAround : Obligations.RotateMovesBitsAround := by
  unfold Obligations.RotateMovesBitsAround
  intro v
  exact ⟨fun n k _ hn hk => getLsbD_rotl32 v (Nat.lt_succ_of_le hn) hk,
    rotl32_eq_low_append_high v rfl (by decide), rotl32_eq_low_append_high v rfl (by decide)⟩

/-- Settles O24: both forms hold for every amount, so for the three that are used. -/
theorem shiftDiscardsHighBits : Obligations.ShiftDiscardsHighBits := by
  unfold Obligations.ShiftDiscardsHighBits
  exact fun v n _ _ => ⟨toNat_shl32 v n, fun _ hk => getLsbD_shl32 v n hk⟩

/-- Settles O26: the lanes written are the mixed lanes, read back column by column. -/
theorem spboxMixesTheFourColumns : Obligations.SpboxMixesTheFourColumns := by
  unfold Obligations.SpboxMixesTheFourColumns
  refine ⟨fun s => ⟨_, exec_spbox s, column_mixLanes s.lanes, fun hzero => ?fixed,
    keepsAllButLanes_setLanes _ s⟩, rfl, by decide⟩
  case fixed => rw [setLanes_lanes, hzero, mixLanes_zero]

/-- Settles O25: `sp` rotates by 24 and by 9, both below the lane width, and shifts as core Lean does. -/
theorem spComputesTheThreeLanes : Obligations.SpComputesTheThreeLanes := by
  unfold Obligations.SpComputesTheThreeLanes
  intro a b c
  rw [← rotl32_eq_rotateLeft a (by decide), ← rotl32_eq_rotateLeft b (by decide)]
  exact ⟨rfl, rfl, rfl⟩

end Sys2Proof.Machine
end

section
/-!
SUPPORT. The micro-operations on word `A` (R170 to R172): their next states, what they keep of the lanes
and the bytes, and that each undoes itself.
-/

namespace Sys2Proof.Machine

/-! ### Next states -/

theorem exec_sswap (s : State) : exec .sswap s = .next (setLanes (onA smallSwap s.lanes) s) := rfl

theorem exec_bswap (s : State) : exec .bswap s = .next (setLanes (onA bigSwap s.lanes) s) := rfl

/-- `ADDRC i` reads entry `i` of the constant store (R93, R171). -/
theorem exec_addrc (i : Fin 6) (s : State) :
    exec (.addrc (BitVec.ofNat 3 i.val)) s =
      .next (setLanes (onA (injectConstant s.rc[i]) s.lanes) s) := by
  have hidx : (BitVec.ofNat 3 i.val).toNat = i.val :=
    Nat.mod_eq_of_lt (i.isLt.trans (by decide))
  have hread : roundConstant (BitVec.ofNat 3 i.val) s = some s.rc[i] := by
    rw [roundConstant_of_lt (hidx.symm ▸ i.isLt)]
    simp only [hidx, Fin.getElem_fin]
  simp only [exec, execAddrc, hread]

/-! ### Two replacements of the lanes -/

@[simp] theorem setLanes_setLanes (l m : Lanes) (s : State) :
    setLanes l (setLanes m s) = setLanes l s := rfl

@[simp] theorem setLanes_self (s : State) : setLanes s.lanes s = s := rfl

/-! ### Word A -/

@[simp] theorem onA_A (f : Row → Row) (l : Lanes) : (onA f l).A = f l.A := rfl
@[simp] theorem onA_B (f : Row → Row) (l : Lanes) : (onA f l).B = l.B := rfl
@[simp] theorem onA_C (f : Row → Row) (l : Lanes) : (onA f l).C = l.C := rfl

/-- A change of `A` that undoes itself undoes itself on the lanes. -/
theorem onA_involutive {f : Row → Row} (hf : f.Involutive) : (onA f).Involutive := fun l => by
  simp only [onA, hf l.A]

theorem smallSwap_involutive : smallSwap.Involutive := fun _ => rfl

theorem bigSwap_involutive : bigSwap.Involutive := fun _ => rfl

/-- XOR of one constant twice is no change (R171). -/
theorem injectConstant_involutive (k : Word) : (injectConstant k).Involutive := fun r => by
  simp [injectConstant]

/-- The two swaps commute: each pair moves as a whole (R172). -/
theorem onA_bigSwap_onA_smallSwap (l : Lanes) :
    onA bigSwap (onA smallSwap l) = onA smallSwap (onA bigSwap l) := rfl

/-! ### What a change of word A keeps -/

/-- A byte is kept when its lane is (R51). -/
theorem byteAt_eq_of_laneAt_eq {l m : Lanes} {k : Fin 48}
    (h : laneAt l ⟨k.val / 4, by omega⟩ = laneAt m ⟨k.val / 4, by omega⟩) :
    byteAt l k = byteAt m k := by
  rw [byteAt, byteAt, h]

/-- Lanes 4 to 11 are those of `B` and `C` (R21). -/
theorem laneAt_onA_of_ge (f : Row → Row) (l : Lanes) {m : Fin 12} (hm : 4 ≤ m.val) :
    laneAt (onA f l) m = laneAt l m := by
  revert hm
  fin_cases m <;> simp [laneAt]

/-- The bytes 16 to 47 are those of `B` and `C` (R51). -/
theorem byteAt_onA_of_ge (f : Row → Row) (l : Lanes) {k : Fin 48} (hk : 16 ≤ k.val) :
    byteAt (onA f l) k = byteAt l k :=
  byteAt_eq_of_laneAt_eq (laneAt_onA_of_ge f l (Nat.div_le_div_right (c := 4) hk))

/-- The bytes 4 to 47 are not those of `A[0]` (R51). -/
theorem byteAt_onA_injectConstant (c : Word) (l : Lanes) {k : Fin 48} (hk : 4 ≤ k.val) :
    byteAt (onA (injectConstant c) l) k = byteAt l k := by
  have hlane : ∀ m : Fin 12, 1 ≤ m.val → laneAt (onA (injectConstant c) l) m = laneAt l m := by
    intro m
    fin_cases m <;> simp [laneAt, injectConstant]
  exact byteAt_eq_of_laneAt_eq (hlane _ (Nat.div_le_div_right (c := 4) hk))

end Sys2Proof.Machine
end

section
/-!
PROOFS. The statements about the micro-operations on word `A`.
-/

namespace Sys2Proof.Machine

/-- Settles O28: the small swap on `A`, which undoes itself. -/
theorem sswapSwapsPairsOfA : Obligations.SswapSwapsPairsOfA := by
  unfold Obligations.SswapSwapsPairsOfA
  refine ⟨fun s => ⟨_, exec_sswap s, rfl, rfl, rfl, fun _ hk => byteAt_onA_of_ge smallSwap _ hk,
    ?twice, keepsAllButLanes_setLanes _ s⟩, rfl, by decide⟩
  case twice =>
    rw [exec_sswap, setLanes_setLanes, setLanes_lanes, onA_involutive smallSwap_involutive,
      setLanes_self]

/-- Settles O29: the big swap on `A`, which undoes itself and commutes with the small one. -/
theorem bswapSwapsHalvesOfA : Obligations.BswapSwapsHalvesOfA := by
  unfold Obligations.BswapSwapsHalvesOfA
  refine ⟨fun s => ⟨_, exec_bswap s, rfl, rfl, rfl, fun _ hk => byteAt_onA_of_ge bigSwap _ hk,
    ?twice, keepsAllButLanes_setLanes _ s⟩, fun s => ⟨_, _, _, exec_sswap s, exec_bswap _,
    exec_bswap s, ?commute, rfl⟩, rfl, by decide⟩
  case twice =>
    rw [exec_bswap, setLanes_setLanes, setLanes_lanes, onA_involutive bigSwap_involutive,
      setLanes_self]
  case commute =>
    rw [exec_sswap, setLanes_setLanes, setLanes_setLanes, setLanes_lanes, setLanes_lanes,
      onA_bigSwap_onA_smallSwap]

/-- Settles O30: the constant read is entry `i` of the store, and XOR with it undoes itself. -/
theorem addrcInjectsRoundConstant : Obligations.AddrcInjectsRoundConstant := by
  unfold Obligations.AddrcInjectsRoundConstant
  intro i
  obtain ⟨-, hformula, -⟩ := roundConstantsMatchTheFormula
  refine ⟨fun s => ⟨_, exec_addrc i s, rfl, fun hinv => ?formula, rfl, rfl,
    fun _ hk => byteAt_onA_injectConstant _ _ hk, ?twice, keepsAllButLanes_setLanes _ s⟩,
    ?word, ?slot⟩
  case formula =>
    have hrc : s.rc = State.reset.rc := hinv.rc
    rw [← hformula i, ← hrc]
    rfl
  case twice =>
    rw [exec_addrc, setLanes_setLanes, setLanes_lanes, setLanes_rc,
      onA_involutive (injectConstant_involutive _), setLanes_self]
  case word => revert i; decide
  case slot => revert i; decide

end Sys2Proof.Machine
end

section
/-!
SUPPORT. The permutation can be undone (R184): a rotation and `sp` are injective, so the mixing step is,
and the swaps and the round constants undo themselves.
-/

namespace Sys2Proof.Machine

/-! ### The lane function -/

/-- Bit `j` goes to bit `(j + n) mod 32`, so a rotation loses none (R150). -/
theorem rotl32_injective {n : Nat} (hn : n < 32) : (fun v => rotl32 v n).Injective := by
  intro u v huv
  refine BitVec.eq_of_getLsbD_eq fun j hj => ?_
  have hlt : (j + n) % 32 < 32 := Nat.mod_lt _ (by decide)
  have hback : ((j + n) % 32 + 32 - n) % 32 = j := by omega
  have hbit : (rotl32 u n).getLsbD ((j + n) % 32) = (rotl32 v n).getLsbD ((j + n) % 32) :=
    congrArg (BitVec.getLsbD · _) huv
  rwa [getLsbD_rotl32 u hn hlt, getLsbD_rotl32 v hn hlt, hback] at hbit

/-- Two words have the same bits below bit `k`. -/
def AgreeBelow (k : Nat) (u v : Word) : Prop := ∀ i < k, u.getLsbD i = v.getLsbD i

theorem agreeBelow_zero (u v : Word) : AgreeBelow 0 u v := fun i hi => absurd hi i.not_lt_zero

/-- Words that agree in all 32 bits are equal. -/
theorem eq_of_agreeBelow {u v : Word} (h : AgreeBelow 32 u v) : u = v := BitVec.eq_of_getLsbD_eq h

theorem AgreeBelow.succ {k : Nat} {u v : Word} (h : AgreeBelow k u v)
    (hk : u.getLsbD k = v.getLsbD k) : AgreeBelow (k + 1) u v := fun i hi => by
  obtain hlt | rfl := Nat.lt_succ_iff_lt_or_eq.mp hi
  · exact h i hlt
  · exact hk

theorem AgreeBelow.and {k : Nat} {u v u' v' : Word} (h : AgreeBelow k u u')
    (h' : AgreeBelow k v v') : AgreeBelow k (u &&& v) (u' &&& v') := fun i hi => by
  simp only [BitVec.getLsbD_and, h i hi, h' i hi]

theorem AgreeBelow.or {k : Nat} {u v u' v' : Word} (h : AgreeBelow k u u')
    (h' : AgreeBelow k v v') : AgreeBelow k (u ||| v) (u' ||| v') := fun i hi => by
  simp only [BitVec.getLsbD_or, h i hi, h' i hi]

/-- Bit `k` of a word shifted up reads the bits below `k` only (R151). -/
theorem AgreeBelow.getLsbD_shl32_eq {k n : Nat} {u v : Word} (h : AgreeBelow k u v) (hk : k < 32)
    (hn : 0 < n) : (shl32 u n).getLsbD k = (shl32 v n).getLsbD k := by
  rw [getLsbD_shl32 u n hk, getLsbD_shl32 v n hk]
  by_cases hnk : n ≤ k
  · rw [h (k - n) (by omega)]
  · simp only [hnk, decide_false, Bool.false_and]

/-- `sp` after its two rotations (R153). -/
def spRotated (col : Column) : Column :=
  { c := col.a ^^^ shl32 col.c 1 ^^^ shl32 (col.b &&& col.c) 2
    b := col.b ^^^ col.a ^^^ shl32 (col.a ||| col.c) 1
    a := col.c ^^^ col.b ^^^ shl32 (col.a &&& col.b) 3 }

theorem sp_eq_spRotated (col : Column) :
    sp col = spRotated ⟨rotl32 col.a 24, rotl32 col.b 9, col.c⟩ := rfl

/-- Equal results determine the three words bit by bit, from bit 0 up: the shifted terms read lower bits
only, so `c` gives bit `k` of the first word, then `b` that of the second, then `a` that of the third. -/
theorem agreeBelow_of_spRotated_eq {x y z x' y' z' : Word}
    (h : spRotated ⟨x, y, z⟩ = spRotated ⟨x', y', z'⟩) (k : Nat) (hk : k ≤ 32) :
    AgreeBelow k x x' ∧ AgreeBelow k y y' ∧ AgreeBelow k z z' := by
  induction k with
  | zero => exact ⟨agreeBelow_zero x x', agreeBelow_zero y y', agreeBelow_zero z z'⟩
  | succ k ih =>
    obtain ⟨hx, hy, hz⟩ := ih (Nat.le_of_succ_le hk)
    have hc := congrArg (fun col : Column => col.c.getLsbD k) h
    have hb := congrArg (fun col : Column => col.b.getLsbD k) h
    have ha := congrArg (fun col : Column => col.a.getLsbD k) h
    simp only [spRotated, BitVec.getLsbD_xor, hz.getLsbD_shl32_eq hk Nat.one_pos,
      (hy.and hz).getLsbD_shl32_eq hk Nat.two_pos, (hx.or hz).getLsbD_shl32_eq hk Nat.one_pos,
      (hx.and hy).getLsbD_shl32_eq hk (Nat.succ_pos 2), Bool.xor_left_inj] at hc hb ha
    rw [hc, Bool.xor_left_inj] at hb
    rw [hb, Bool.xor_left_inj] at ha
    exact ⟨hx.succ hc, hy.succ hb, hz.succ ha⟩

theorem spRotated_injective : spRotated.Injective := by
  rintro ⟨x, y, z⟩ ⟨x', y', z'⟩ h
  obtain ⟨hx, hy, hz⟩ := agreeBelow_of_spRotated_eq h 32 le_rfl
  rw [eq_of_agreeBelow hx, eq_of_agreeBelow hy, eq_of_agreeBelow hz]

theorem sp_injective : sp.Injective := by
  intro u v h
  rw [sp_eq_spRotated, sp_eq_spRotated] at h
  obtain ⟨ha, hb, hc⟩ := Column.mk.inj (spRotated_injective h)
  exact Column.ext (rotl32_injective (by decide) ha) (rotl32_injective (by decide) hb) hc

/-! ### The lanes -/

/-- The columns determine the lanes, and `sp` each column (R154). -/
theorem mixLanes_injective : mixLanes.Injective := by
  intro l m h
  have hcolumn : column l = column m := by
    funext j
    apply sp_injective
    rw [← column_mixLanes, ← column_mixLanes, h]
  rw [← lanesOfColumns_column l, ← lanesOfColumns_column m, hcolumn]

/-- Each of the seven uops of a big round is injective (R173). -/
theorem bigRound_injective (i : Fin 6) : (bigRound i).Injective :=
  have hsmall := (onA_involutive smallSwap_involutive).injective
  have hconst := (onA_involutive (injectConstant_involutive roundConstants[i])).injective
  have hbig := (onA_involutive bigSwap_involutive).injective
  mixLanes_injective.comp <| hbig.comp <| mixLanes_injective.comp <| mixLanes_injective.comp <|
    hconst.comp <| hsmall.comp mixLanes_injective

theorem permuteLanes_injective : permuteLanes.Injective :=
  (bigRound_injective 5).comp <| (bigRound_injective 4).comp <| (bigRound_injective 3).comp <|
    (bigRound_injective 2).comp <| (bigRound_injective 1).comp (bigRound_injective 0)

/-- There are finitely many States: twelve words of 32 bits (R24). -/
theorem finite_lanes : Finite Lanes :=
  Finite.of_injective laneAt fun _ _ h => lanes_ext (congrFun h)

end Sys2Proof.Machine
end

section
/-!
PROOFS. The permutation is a bijection.
-/

namespace Sys2Proof.Machine

/-- Settles O46: an injective map of a finite set to itself is surjective. -/
theorem permutationIsBijective : Obligations.PermutationIsBijective := by
  unfold Obligations.PermutationIsBijective
  have := finite_lanes
  exact Finite.injective_iff_bijective.mp permuteLanes_injective

end Sys2Proof.Machine
end

section
/-!
SUPPORT. The control machine: what a step does to the control view of a state is a function of that view
(R182). Legality is a property of the view and of the two stores, so every step keeps it.
-/

namespace Sys2Proof.Machine

/-! ### The control machine -/

/-- `rst`, `cmd_valid` and `cmd` of the present sample, as the view shows them. -/
def ControlView.pins (v : ControlView) : Bool × Bool × BitVec 10 := v.inputs.headD (false, false, 0)

/-- What `nextCycle` does to the view. -/
def ControlView.nextCycle (v : ControlView) : ControlView :=
  { v with rsp := none, inputs := v.inputs.tail }

/-- What `resetRegisters` does to the view. -/
def ControlView.resetRegisters (v : ControlView) : ControlView :=
  { v with busy := false, pc := 0, rsp := none, resetDone := true }

/-- What `advanceSlot` does to the view. -/
def ControlView.advanceSlot (v : ControlView) : ControlView :=
  if v.pc = 41 then { v with busy := false, pc := 0, rsp := some (false, false) }
  else { v with pc := v.pc + 1 }

/-- What a command does to the view: `PERM` starts the scheduler, any other command answers. -/
def ControlView.command (word : BitVec 10) (v : ControlView) : ControlView :=
  if cmdOp word = 0b00 then { v with rsp := some (false, false) }
  else if cmdOp word = 0b01 then { v with rsp := some (!lengthValid (cmdLen word), false) }
  else if cmdOp word = 0b10 then { v with busy := true, pc := 0 }
  else { v with rsp := some (false, true) }

/-- What a step does to the view. -/
def ControlView.step (v : ControlView) : ControlView :=
  if v.pins.1 then v.nextCycle.resetRegisters
  else if !v.resetDone then v.nextCycle
  else if v.busy then v.nextCycle.advanceSlot
  else if v.pins.2.1 then v.nextCycle.command v.pins.2.2
  else v.nextCycle

/-! ### The machine's operations seen through the view -/

@[simp] theorem controlView_busy (s : State) : (controlView s).busy = s.busy := rfl
@[simp] theorem controlView_pc (s : State) : (controlView s).pc = s.pc := rfl
@[simp] theorem controlView_resetDone (s : State) : (controlView s).resetDone = s.resetDone := rfl

@[simp] theorem controlView_pins (s : State) :
    (controlView s).pins =
      ((currentPins s).rst, (currentPins s).cmdValid, (currentPins s).cmd) := by
  cases hin : s.inputs <;> simp [ControlView.pins, controlView, currentPins, hin, Pins.idle]

theorem controlView_nextCycle (s : State) :
    controlView (nextCycle s) = (controlView s).nextCycle := by
  simp [controlView, ControlView.nextCycle]

theorem controlView_resetRegisters (s : State) :
    controlView (resetRegisters s) = (controlView s).resetRegisters := rfl

theorem controlView_setLanes (l : Lanes) (s : State) : controlView (setLanes l s) = controlView s := rfl

theorem controlView_advanceSlot (s : State) :
    controlView (advanceSlot s) = (controlView s).advanceSlot := by
  by_cases hpc : s.pc = 41
  · rw [advanceSlot_last s hpc, ControlView.advanceSlot, controlView_pc, if_pos hpc]
    rfl
  · rw [advanceSlot_other s hpc, ControlView.advanceSlot, controlView_pc, if_neg hpc]
    rfl

/-- A micro-operation is invisible (R23, R182). -/
theorem controlView_exec_uop {i : Instr} (hi : i.format = .uop) {s t : State}
    (h : exec i s = .next t) : controlView t = controlView s := by
  rw [exec_uop hi h, controlView_setLanes]

/-- Of a command the view shows what its operation and its `len` decide (R182). -/
theorem controlView_exec_decodeCmd {word : BitVec 10} {wdata : Bytes48} {s t : State}
    (h : exec (decodeCmd word wdata) s = .next t) :
    controlView t = (controlView s).command word := by
  unfold decodeCmd at h
  unfold ControlView.command
  split_ifs at h ⊢
  · rw [exec_clr] at h; cases h; rfl
  · cases hlen : lengthValid (cmdLen word) with
    | true => rw [exec_load_of_valid hlen] at h; cases h; rfl
    | false => rw [exec_load_of_invalid hlen] at h; cases h; rfl
  · rw [exec_perm] at h; cases h; rfl
  · rw [exec_read] at h; cases h; rfl

/-- A step does to the view what the control machine does, whatever the data (R182). -/
theorem controlView_step {s t : State} (h : step s = .next t) :
    controlView t = (controlView s).step := by
  obtain ⟨he, rfl⟩ | ⟨word, wdata, he, hexec⟩ | ⟨he, hslot⟩ | ⟨he, rfl⟩ := step_next h
  · have hr := of_stepEvent_reset he
    rw [resetEdge, controlView_resetRegisters, controlView_nextCycle]
    simp [ControlView.step, hr]
  · obtain ⟨hr, hd, hb, hv, rfl, -⟩ := of_stepEvent_accept he
    rw [controlView_exec_decodeCmd hexec, controlView_nextCycle]
    simp [ControlView.step, hr, hd, hb, hv]
  · obtain ⟨hr, hd, hb⟩ := of_stepEvent_slot he
    obtain ⟨word, i, u, -, hdecode, hexec, rfl⟩ := schedulerStep_next hslot
    rw [controlView_advanceSlot, controlView_exec_uop (decodeUop_ok hdecode).1 hexec,
      controlView_nextCycle]
    simp [ControlView.step, hr, hd, hb]
  · obtain ⟨hr, hv, hb⟩ := of_stepEvent_idle he
    rw [controlView_nextCycle]
    cases hd : s.resetDone with
    | false => simp [ControlView.step, hr, hd]
    | true => simp [ControlView.step, hr, hd, hv, hb hd]

/-! ### Legality -/

/-- The part of the invariant that the view shows. -/
structure ControlView.Legal (v : ControlView) : Prop where
  resetDone : v.resetDone = true
  pcBusy : v.busy = true → v.pc.toNat < 42
  pcIdle : v.busy = false → v.pc = 0
  rspBusy : v.busy = true → v.rsp = none
  rspData : v.rsp ≠ some (true, true)

/-- A state is legal when its stores hold the spec's constants and its view is legal. -/
theorem inv_iff (s : State) :
    s.Inv ↔ s.rom = scheduleRom ∧ s.rc = roundConstants ∧ (controlView s).Legal := by
  have hdata : (∀ r, s.rsp = some r → r.err = true → r.rdata = none) ↔
      (controlView s).rsp ≠ some (true, true) := by
    cases hr : s.rsp with
    | none => simp [controlView, hr]
    | some r => simp [controlView, hr]
  constructor
  · rintro ⟨hdone, hrom, hrc, hpcBusy, hpcIdle, hrspBusy, hrspData⟩
    exact ⟨hrom, hrc, hdone, hpcBusy, hpcIdle,
      fun hb => Option.map_eq_none_iff.mpr (hrspBusy hb), hdata.mp hrspData⟩
  · rintro ⟨hrom, hrc, hdone, hpcBusy, hpcIdle, hrspBusy, hrspData⟩
    exact ⟨hdone, hrom, hrc, hpcBusy, hpcIdle, fun hb => Option.map_eq_none_iff.mp (hrspBusy hb),
      hdata.mpr hrspData⟩

theorem ControlView.Legal.nextCycle {v : ControlView} (h : v.Legal) : v.nextCycle.Legal :=
  ⟨h.resetDone, h.pcBusy, h.pcIdle, fun _ => rfl, nofun⟩

/-- A reset edge leads to a legal view from any view (R243). -/
theorem ControlView.legal_resetRegisters (v : ControlView) : v.resetRegisters.Legal :=
  ⟨rfl, nofun, fun _ => rfl, nofun, nofun⟩

/-- The slot counter stays within the ROM (R26). -/
theorem ControlView.Legal.advanceSlot {v : ControlView} (h : v.Legal) (hb : v.busy = true) :
    v.advanceSlot.Legal := by
  unfold ControlView.advanceSlot
  split
  next => exact ⟨h.resetDone, nofun, fun _ => rfl, nofun, by simp⟩
  next hpc =>
    have hlt := h.pcBusy hb
    have hnext : (v.pc + 1).toNat < 42 := by bv_omega
    exact ⟨h.resetDone, fun _ => hnext, fun hidle => by simp [hb] at hidle, h.rspBusy, h.rspData⟩

/-- An accepted command leads an idle view to a legal one. -/
theorem ControlView.Legal.command {v : ControlView} (h : v.Legal) (hb : v.busy = false)
    (hr : v.rsp = none) (word : BitVec 10) : (v.command word).Legal := by
  have hanswer : ∀ e d : Bool, (e, d) ≠ (true, true) → { v with rsp := some (e, d) }.Legal :=
    fun e d hed => ⟨h.resetDone, h.pcBusy, h.pcIdle, by simp [hb], by simpa using hed⟩
  unfold ControlView.command
  split_ifs
  · exact hanswer _ _ (by simp)
  · exact hanswer _ _ (by simp)
  · exact ⟨h.resetDone, fun _ => Nat.succ_pos 41, nofun, fun _ => hr, h.rspData⟩
  · exact hanswer _ _ (by simp)

/-- The control machine keeps legality. -/
theorem ControlView.Legal.step {v : ControlView} (h : v.Legal) : v.step.Legal := by
  unfold ControlView.step
  split_ifs with hrst hdone hbusy hvalid
  · exact v.nextCycle.legal_resetRegisters
  · exact h.nextCycle
  · exact h.nextCycle.advanceSlot hbusy
  · exact h.nextCycle.command (Bool.eq_false_of_not_eq_true hbusy) rfl _
  · exact h.nextCycle

/-- Every step from a legal state that answers a next state answers a legal one (R26, R29, R30, R246). -/
theorem inv_of_step {s t : State} (h : s.Inv) (hst : step s = .next t) : t.Inv := by
  obtain ⟨hrom, hrc, hlegal⟩ := (inv_iff s).mp h
  obtain ⟨hrc', hrom'⟩ := step_keeps_stores hst
  exact (inv_iff t).mpr ⟨hrom'.trans hrom, hrc'.trans hrc, controlView_step hst ▸ hlegal.step⟩

/-! ### Runs -/

/-- A run that answers a next state took its first step and then the rest. -/
theorem run_succ_next {n : Nat} {s t : State} (h : core.run (n + 1) s = .next t) :
    ∃ u, step s = .next u ∧ core.run n u = .next t := by
  have hstep : core.step s = step s := rfl
  cases hs : step s with
  | next u => exact ⟨u, rfl, by rwa [run_of_step n hs] at h⟩
  | fault r => simp only [Host.Core.run, hstep, hs] at h; cases h
  | refused r => simp only [Host.Core.run, hstep, hs] at h; cases h

/-! ### The ports of a busy engine -/

/-- While a `PERM` runs no unspecified port may show the lanes (R180, R248). -/
theorem portSight_of_busy {s : State} (hb : s.busy = true) : portSight s = none := by
  rw [portSight, if_pos hb]

/-- The lanes reach the ports through the byte view only. -/
theorem outPins_setLanes {l : Lanes} {s : State} (h : portSight (setLanes l s) = portSight s) :
    outPins (setLanes l s) = outPins s := by
  unfold outPins outCmdReady outRspValid outRspErr outRspRdata
  rw [h]
  rfl

end Sys2Proof.Machine
end

section
/-!
PROOFS. Noninterference: the sequencing does not depend on data, and a busy engine hides its lanes.
-/

namespace Sys2Proof.Machine

/-- Settles O42, by induction on the number of steps: both runs follow the control machine, and a legal
state never stops. -/
theorem controlIsIndependentOfData : Obligations.ControlIsIndependentOfData := by
  unfold Obligations.ControlIsIndependentOfData
  intro n
  induction n with
  | zero =>
    intro s t s' _ _ hview hrun
    cases hrun
    exact ⟨t, rfl, hview⟩
  | succ n ih =>
    intro s t s' hs ht hview hrun
    obtain ⟨u, hsu, hrun⟩ := run_succ_next hrun
    obtain ⟨v, htv⟩ := canStep_of_inv ht
    have huv : controlView u = controlView v := by
      rw [controlView_step hsu, controlView_step htv, hview]
    rw [run_of_step n htv]
    exact ih u v s' (inv_of_step hs hsu) (inv_of_step ht htv) huv hrun

/-- Settles O41: a legal busy engine has no response, and its ports have no sight of the lanes. -/
theorem busyPortsHideTheLanes : Obligations.BusyPortsHideTheLanes := by
  unfold Obligations.BusyPortsHideTheLanes
  intro s l hinv hb
  have hrsp := hinv.rspBusy hb
  refine ⟨?ready, ?valid, outPins_setLanes ?sight⟩
  case ready => simp [outPins, outCmdReady, cmdReady, hinv.resetDone, hb]
  case valid => simp [outPins, outRspValid, hinv.resetDone, hrsp]
  case sight => rw [portSight_of_busy hb, portSight_of_busy (by simpa using hb)]

end Sys2Proof.Machine
end

section
/-!
SUPPORT. The scheduler slot by slot (R176, R178): the uop of each slot and what it does to the lanes, one
slot as one step, a run of slots, and that the 42 slots are the six big rounds (R173, R174).
-/

namespace Sys2Proof.Machine

/-! ### The scheduler step and the slot counter -/

/-- With `busy = 0` no scheduler step is enabled (R176). -/
theorem stepEvent_ne_slot {s : State} (hb : s.busy = false) : stepEvent s ≠ .slot := fun he => by
  obtain ⟨-, -, hbusy⟩ := of_stepEvent_slot he
  rw [hb] at hbusy
  cases hbusy

/-- The advance of the slot counter keeps the stores and the host's side. -/
theorem keepsStoresAndHost_advanceSlot (s : State) : KeepsStoresAndHost s (advanceSlot s) where
  rc := advanceSlot_rc s
  rom := advanceSlot_rom s
  resetDone := advanceSlot_resetDone s
  inputs := advanceSlot_inputs s
  tick := advanceSlot_tick s

/-- After slot 41 the engine is idle and responds (R176). -/
theorem advanceSlot_of_last {s : State} (h : s.pc.toNat = 41) :
    (advanceSlot s).pc = 0 ∧ (advanceSlot s).busy = false ∧
      (advanceSlot s).rsp = some ⟨false, none⟩ := by
  have hpc : s.pc = 41 := BitVec.eq_of_toNat_eq h
  rw [advanceSlot_last s hpc]
  exact ⟨rfl, rfl, rfl⟩

/-- Before slot 41 the counter goes to the next slot and nothing else happens (R176). -/
theorem advanceSlot_of_lt {s : State} (h : s.pc.toNat < 41) :
    (advanceSlot s).pc.toNat = s.pc.toNat + 1 ∧ (advanceSlot s).busy = s.busy ∧
      (advanceSlot s).rsp = s.rsp := by
  have hpc : s.pc ≠ 41 := by bv_omega
  have hnext : (s.pc + 1).toNat = s.pc.toNat + 1 := by bv_omega
  rw [advanceSlot_other s hpc]
  exact ⟨hnext, rfl, rfl⟩

/-! ### The uop of a slot -/

/-- The uop of slot `k`: position `k mod 7` of big round `k div 7` (R91, R173). -/
def slotUop (k : Nat) : Instr :=
  match k % 7 with
  | 1 => .sswap
  | 2 => .addrc (BitVec.ofNat 3 (k / 7))
  | 5 => .bswap
  | _ => .spbox

/-- What that uop does to the lanes (R154, R170 to R172). -/
def slotLanes (k : Nat) (l : Lanes) : Lanes :=
  match k % 7 with
  | 1 => onA smallSwap l
  | 2 => onA (injectConstant roundConstants[k / 7]!) l
  | 5 => onA bigSwap l
  | _ => mixLanes l

/-- Slot `k` of the ROM holds the word of `slotUop k` (R91). -/
theorem decodeUop_scheduleRom_slot :
    ∀ k : Fin 42, decodeUop scheduleRom[k] = .ok (slotUop k.val) := by
  decide

/-- The uop of slot `k` does to the lanes what `slotLanes k` says. -/
theorem exec_slotUop {k : Nat} (hk : k < 42) {s : State} (hrc : s.rc = roundConstants) :
    exec (slotUop k) s = .next (setLanes (slotLanes k s.lanes) s) := by
  have hround : k / 7 < 6 := by omega
  unfold slotUop slotLanes
  split
  · exact exec_sswap s
  · rw [exec_addrc ⟨k / 7, hround⟩ s, hrc, getElem!_pos roundConstants (k / 7) hround]
    rfl
  · exact exec_bswap s
  · exact exec_spbox s

/-! ### Slots as steps -/

/-- A legal engine about to run slot `k`. -/
structure AtSlot (k : Nat) (s : State) : Prop where
  inv : s.Inv
  busy : s.busy = true
  pc : s.pc.toNat = k

theorem AtSlot.lt {k : Nat} {s : State} (h : AtSlot k s) : k < 42 := h.pc ▸ h.inv.pcBusy h.busy

/-- The word fetched at slot `k` decodes to the uop of slot `k` (R91, R176). -/
theorem AtSlot.fetch {k : Nat} {s : State} (h : AtSlot k s) :
    ∃ word, fetchSlot s = some word ∧ decodeUop word = .ok (slotUop k) := by
  have hfetch : fetchSlot s = some (scheduleRom[k]'h.lt) := by
    rw [fetchSlot, h.pc, h.inv.rom, Vector.getElem?_eq_getElem h.lt]
  exact ⟨_, hfetch, decodeUop_scheduleRom_slot ⟨k, h.lt⟩⟩

/-- That uop changes the lanes as `slotLanes k` says. -/
theorem AtSlot.exec_eq {k : Nat} {s : State} (h : AtSlot k s) :
    exec (slotUop k) (nextCycle s) = .next (setLanes (slotLanes k s.lanes) (nextCycle s)) :=
  exec_slotUop h.lt (s := nextCycle s) h.inv.rc

/-- A step at slot `k` is that uop, and the advance of the slot counter (R176, R178). -/
theorem AtSlot.step_eq {k : Nat} {s : State} (h : AtSlot k s) (hr : (currentPins s).rst = false) :
    step s = .next (advanceSlot (setLanes (slotLanes k s.lanes) (nextCycle s))) := by
  obtain ⟨word, hfetch, hdecode⟩ := h.fetch
  rw [step_of_slot (stepEvent_slot hr h.inv.resetDone h.busy),
    schedulerStep_of_decodeUop hfetch hdecode, h.exec_eq, onNext]

/-- Every slot but the last leads to the next one (R178). -/
theorem AtSlot.step_to_next {k : Nat} {s : State} (h : AtSlot k s) (hk : k < 41)
    (hr : (currentPins s).rst = false) :
    ∃ t, step s = .next t ∧ AtSlot (k + 1) t ∧ t.lanes = slotLanes k s.lanes ∧
      t.inputs = s.inputs.tail := by
  have hstep := h.step_eq hr
  obtain ⟨hpc, hbusy, -⟩ := advanceSlot_of_lt (s := setLanes (slotLanes k s.lanes) (nextCycle s))
    (h.pc.trans_lt hk)
  exact ⟨_, hstep, ⟨inv_of_step h.inv hstep, hbusy.trans h.busy, hpc.trans (congrArg (· + 1) h.pc)⟩,
    advanceSlot_lanes _, advanceSlot_inputs _⟩

/-- The last slot ends the `PERM` with its response (R176, R179). -/
theorem AtSlot.step_of_last {s : State} (h : AtSlot 41 s) (hr : (currentPins s).rst = false) :
    ∃ t, step s = .next t ∧ t.lanes = slotLanes 41 s.lanes ∧ t.busy = false ∧ t.pc = 0 ∧
      t.rsp = some ⟨false, none⟩ ∧ t.inputs = s.inputs.tail := by
  obtain ⟨hpc, hbusy, hrsp⟩ :=
    advanceSlot_of_last (s := setLanes (slotLanes 41 s.lanes) (nextCycle s)) h.pc
  exact ⟨_, h.step_eq hr, advanceSlot_lanes _, hbusy, hpc, hrsp, advanceSlot_inputs _⟩

/-! ### Runs of slots -/

/-- What the `n` slots from slot `k` on do to the lanes, in increasing order (R178). -/
def slotsLanes (k n : Nat) (l : Lanes) : Lanes := (List.range' k n).foldl (fun m i => slotLanes i m) l

theorem slotsLanes_succ (k n : Nat) (l : Lanes) :
    slotsLanes k (n + 1) l = slotsLanes (k + 1) n (slotLanes k l) := rfl

theorem slotsLanes_add (k m n : Nat) (l : Lanes) :
    slotsLanes k (m + n) l = slotsLanes (k + m) n (slotsLanes k m l) := by
  rw [slotsLanes, slotsLanes, slotsLanes, ← List.foldl_append, List.range'_append_1]

/-- Without a reset in the coming samples there is none now, nor in those after the present one. -/
theorem no_reset_of_take_succ {s : State} {n : Nat}
    (h : ∀ p ∈ s.inputs.take (n + 1), p.rst = false) :
    (currentPins s).rst = false ∧ ∀ p ∈ s.inputs.tail.take n, p.rst = false := by
  cases hin : s.inputs with
  | nil => simp [currentPins, hin, Pins.idle]
  | cons p rest =>
    simp only [hin, List.take_succ_cons, List.forall_mem_cons] at h
    simpa [currentPins, hin] using h

/-- A run of slots that stays before the end of the `PERM`: each step is the next slot (R178). -/
theorem run_slots (n : Nat) {k : Nat} {s : State} (h : AtSlot k s) (hn : k + n < 42)
    (hr : ∀ p ∈ s.inputs.take n, p.rst = false) :
    ∃ t, core.run n s = .next t ∧ AtSlot (k + n) t ∧ t.lanes = slotsLanes k n s.lanes ∧
      t.inputs = s.inputs.drop n := by
  induction n generalizing k s with
  | zero => exact ⟨s, rfl, h, rfl, rfl⟩
  | succ n ih =>
    obtain ⟨hr, hrest⟩ := no_reset_of_take_succ hr
    obtain ⟨u, hsu, hu, hlanes, hinputs⟩ := h.step_to_next (by omega) hr
    obtain ⟨t, hut, ht, hlanes', hinputs'⟩ := ih hu (by omega) (hinputs ▸ hrest)
    refine ⟨t, (run_of_step n hsu).trans hut, ?_, ?_, ?_⟩
    · rwa [Nat.add_right_comm] at ht
    · rw [hlanes', hlanes, slotsLanes_succ]
    · rw [hinputs', hinputs, List.drop_tail]

/-- All 42 slots, from slot 0 to the response (R178, R179). -/
theorem run_all_slots {s : State} (h : AtSlot 0 s) (hr : ∀ p ∈ s.inputs.take 42, p.rst = false) :
    ∃ t, core.run 42 s = .next t ∧ t.lanes = slotsLanes 0 42 s.lanes ∧ t.busy = false ∧
      t.pc = 0 ∧ t.rsp = some ⟨false, none⟩ ∧ t.inputs = s.inputs.drop 42 := by
  have hr41 : ∀ p ∈ s.inputs.take 41, p.rst = false := fun p hp =>
    hr p (List.take_subset_take_left _ (by decide) hp)
  obtain ⟨u, hsu, hu, hlanes, hinputs⟩ := run_slots 41 h (by decide) hr41
  have hlast : (currentPins u).rst = false := by
    refine (no_reset_of_take_succ (n := 0) fun p hp => hr p ?_).1
    rw [hinputs, ← List.drop_take (i := 41) (j := 42)] at hp
    exact List.mem_of_mem_drop hp
  obtain ⟨t, hut, hlanes', hb, hpc, hrsp, hinputs'⟩ := hu.step_of_last hlast
  refine ⟨t, ?_, ?_, hb, hpc, hrsp, ?_⟩
  · rw [run_add 41 1 hsu, run_of_step 0 hut]
    rfl
  · rw [hlanes', hlanes, slotsLanes_add 0 41 1]
    rfl
  · rw [hinputs', hinputs, List.tail_drop]

/-! ### The slots and the permutation -/

/-- The seven slots from `7 i` on are big round `i` (R173). -/
theorem slotsLanes_eq_bigRound (i : Fin 6) (l : Lanes) :
    slotsLanes (7 * i.val) 7 l = bigRound i l := by
  fin_cases i <;> rfl

/-- The slots of one more big round (R173). -/
theorem slotsLanes_add_round (i : Fin 6) (l : Lanes) :
    slotsLanes 0 (7 * i.val + 7) l = bigRound i (slotsLanes 0 (7 * i.val) l) := by
  rw [slotsLanes_add, Nat.zero_add, slotsLanes_eq_bigRound]

/-- The 42 slots are the permutation (R174, R179). -/
theorem slotsLanes_eq_permuteLanes (l : Lanes) : slotsLanes 0 42 l = permuteLanes l := by
  have h5 : slotsLanes 0 42 l = bigRound 5 (slotsLanes 0 35 l) := slotsLanes_add_round 5 l
  have h4 : slotsLanes 0 35 l = bigRound 4 (slotsLanes 0 28 l) := slotsLanes_add_round 4 l
  have h3 : slotsLanes 0 28 l = bigRound 3 (slotsLanes 0 21 l) := slotsLanes_add_round 3 l
  have h2 : slotsLanes 0 21 l = bigRound 2 (slotsLanes 0 14 l) := slotsLanes_add_round 2 l
  have h1 : slotsLanes 0 14 l = bigRound 1 (slotsLanes 0 7 l) := slotsLanes_add_round 1 l
  have h0 : slotsLanes 0 7 l = bigRound 0 l := slotsLanes_add_round 0 l
  rw [permuteLanes, h5, h4, h3, h2, h1, h0]

/-! ### The acceptance of a PERM -/

/-- An accepted `PERM` leads to slot 0 with no lane changed (R177). -/
theorem step_of_accepted_perm {s : State} {word : BitVec 10} {wdata : Bytes48} (h : s.Inv)
    (he : stepEvent s = .accept word wdata) (hop : cmdOp word = 0b10) :
    ∃ t, step s = .next t ∧ AtSlot 0 t ∧ t.lanes = s.lanes ∧ t.inputs = s.inputs.tail := by
  have hdecode : decodeCmd word wdata = .perm (cmdLen word) wdata := by simp [decodeCmd, hop]
  have hstep : step s = .next (setSequencer true 0 (nextCycle s)) := by
    rw [step_of_accept he, hdecode, exec_perm]
  exact ⟨_, hstep, ⟨inv_of_step h hstep, rfl, rfl⟩, rfl, rfl⟩

end Sys2Proof.Machine
end

section
/-!
PROOFS. The scheduler step, and the permutation that an accepted `PERM` computes.
-/

namespace Sys2Proof.Machine

/-- Settles O34: the step is the uop of the fetched word followed by the advance of the slot counter, which
has two cases. -/
theorem schedulerStepCountsTheSlots : Obligations.SchedulerStepCountsTheSlots := by
  unfold Obligations.SchedulerStepCountsTheSlots
  refine ⟨fun s hb => stepEvent_ne_slot hb, fun s hinv hb hr => ?_⟩
  have hslot : AtSlot s.pc.toNat s := ⟨hinv, hb, rfl⟩
  obtain ⟨word, hfetch, hdecode⟩ := hslot.fetch
  refine ⟨word, _, _, _, hfetch, hdecode, hslot.exec_eq, hslot.step_eq hr, advanceSlot_lanes _,
    keepsStoresAndHost_advanceSlot _, ?_⟩
  split
  next hlast => exact advanceSlot_of_last hlast
  next hother =>
    obtain ⟨hpc, hbusy, hrsp⟩ := advanceSlot_of_lt
      (s := setLanes (slotLanes s.pc.toNat s.lanes) (nextCycle s))
      (Nat.lt_of_le_of_ne (Nat.le_of_lt_succ hslot.lt) hother)
    exact ⟨hpc, hbusy.trans hb, hrsp⟩

/-- Settles O44: the acceptance leads to slot 0, `k` further steps to slot `k`, and 42 to the response; the
42 slots are the permutation. -/
theorem permComputesThePermutation : Obligations.PermComputesThePermutation := by
  unfold Obligations.PermComputesThePermutation
  intro s word d rest hinv hb hin hop hr
  have hpins : currentPins s = ⟨false, true, word, d⟩ := by simp [currentPins, hin]
  have haccept : stepEvent s = .accept word d := by
    rw [stepEvent_accept (by rw [hpins]) hinv.resetDone hb (by rw [hpins]), hpins]
  obtain ⟨u, hsu, hslot, hlanes, hinputs⟩ := step_of_accepted_perm hinv haccept hop
  rw [hin, List.tail_cons] at hinputs
  refine ⟨⟨u, hsu, hlanes⟩, fun k hk => ?slots, ?result⟩
  case slots =>
    have hrk : ∀ p ∈ u.inputs.take k, p.rst = false := fun p hp =>
      hr p (List.take_subset_take_left _ hk.le (hinputs ▸ hp))
    obtain ⟨t, hut, ht, -, -⟩ := run_slots k hslot (by omega) hrk
    rw [Nat.zero_add] at ht
    exact ⟨t, (run_of_step k hsu).trans hut, ht.busy, ht.pc, ht.inv.rspBusy ht.busy⟩
  case result =>
    obtain ⟨t, hut, ht, hbusy, hpc, hrsp, htin⟩ := run_all_slots hslot (hinputs ▸ hr)
    have hperm : t.lanes = permuteLanes s.lanes := by
      rw [ht, slotsLanes_eq_permuteLanes, hlanes]
    refine ⟨t, (run_of_step 42 hsu).trans hut, hperm, ?_, hbusy, hpc, hrsp, hinputs ▸ htin⟩
    rw [hperm, permuteBytes, unpack_pack]

end Sys2Proof.Machine
end

section
/-!
SUPPORT. Which responses carry the error `InvalidLength` (R210, R211), and the step of a `LOAD` that fails
(R212).
-/

namespace Sys2Proof.Machine

/-! ### Who answers an error -/

/-- The control view shows whether the response is an error (R87). -/
theorem rsp_err_iff_controlView (s : State) :
    (∃ r, s.rsp = some r ∧ r.err = true) ↔ ∃ d, (controlView s).rsp = some (true, d) := by
  cases hr : s.rsp with
  | none => simp [controlView, hr]
  | some r => simp [controlView, hr]

/-- Of the four commands only a `LOAD` answers an error, and only with a length other than 48 (R211). -/
theorem ControlView.command_err_iff {v : ControlView} (hr : v.rsp = none) (word : BitVec 10) :
    (∃ d, (v.command word).rsp = some (true, d)) ↔
      cmdOp word = 0b01 ∧ (cmdLen word).toNat ≠ 48 := by
  unfold ControlView.command
  split_ifs with hclr hload
  · simp [hclr]
  · simp [hload, ← lengthValid_iff]
  · exact iff_of_false (by simp [hr]) fun ⟨hop, _⟩ => hload hop
  · exact iff_of_false (by simp) fun ⟨hop, _⟩ => hload hop

/-- The advance from slot 41 responds, any other leaves the response as it was (R176). -/
theorem advanceSlot_rsp (s : State) :
    (advanceSlot s).rsp = if s.pc = 41 then some ⟨false, none⟩ else s.rsp := by
  unfold advanceSlot
  split <;> rfl

/-- A scheduler step answers the success of its `PERM` after slot 41 and nothing before (R176, R177). -/
theorem rsp_of_schedulerStep {s t : State} (h : schedulerStep s = .next t) :
    t.rsp = if s.pc = 41 then some ⟨false, none⟩ else none := by
  obtain ⟨_, i, u, -, hdecode, hexec, rfl⟩ := schedulerStep_next h
  rw [exec_uop (decodeUop_ok hdecode).1 hexec, advanceSlot_rsp, setLanes_pc, nextCycle_pc, setLanes_rsp,
    nextCycle_rsp]

/-! ### The acceptance of a command that fails -/

/-- A command offered to a legal idle engine is accepted (R245). -/
theorem stepEvent_of_offered {s : State} {word : BitVec 10} {wdata : Bytes48} {rest : List Pins}
    (hinv : s.Inv) (hb : s.busy = false) (hin : s.inputs = ⟨false, true, word, wdata⟩ :: rest) :
    stepEvent s = .accept word wdata := by
  have hpins : currentPins s = ⟨false, true, word, wdata⟩ := by simp [currentPins, hin]
  rw [stepEvent_accept (by rw [hpins]) hinv.resetDone hb (by rw [hpins]), hpins]

/-- An accepted `LOAD` of a wrong length raises `InvalidLength` and does nothing else (R126, R212). -/
theorem step_of_failed_load {s : State} {word : BitVec 10} {wdata : Bytes48}
    (he : stepEvent s = .accept word wdata) (hop : cmdOp word = 0b01)
    (hlen : (cmdLen word).toNat ≠ 48) :
    step s = .next (raiseInvalidLength (lengthOperand (cmdLen word)) (nextCycle s)) := by
  have hdecode : decodeCmd word wdata = .load (cmdLen word) wdata := by simp [decodeCmd, hop]
  have hinvalid : lengthValid (cmdLen word) = false :=
    Bool.eq_false_of_not_eq_true (mt (lengthValid_iff _).mp hlen)
  rw [step_of_accept he, hdecode, exec_load_of_invalid hinvalid]

end Sys2Proof.Machine
end

section
/-!
PROOFS. The statements about the exception: who raises `InvalidLength`, and what it changes.
-/

namespace Sys2Proof.Machine

/-- Settles O20: a command begins with no response, and of what it answers the control view shows the
error; a scheduler step answers success or nothing. -/
theorem invalidLengthIsRaisedByLoadOnly : Obligations.InvalidLengthIsRaisedByLoadOnly := by
  unfold Obligations.InvalidLengthIsRaisedByLoadOnly
  refine ⟨fun s t word d haccept hstep => ?command, fun s t hslot hstep r hr => ?slot⟩
  case command =>
    have hexec : exec (decodeCmd word d) (nextCycle s) = .next t := by
      rw [← step_of_accept haccept, hstep]
    rw [rsp_err_iff_controlView, controlView_exec_decodeCmd hexec]
    exact ControlView.command_err_iff rfl word
  case slot =>
    rw [step_of_slot hslot] at hstep
    rw [rsp_of_schedulerStep hstep] at hr
    split at hr <;> cases hr
    rfl

/-- Settles O21: the failed `LOAD` is accepted, raises its error in the next cycle's state, and that state
is idle as the one before. -/
theorem invalidLengthChangesNothing : Obligations.InvalidLengthChangesNothing := by
  unfold Obligations.InvalidLengthChangesNothing
  intro s word d rest hinv hb hin hop hlen
  have hstep := step_of_failed_load (stepEvent_of_offered hinv hb hin) hop hlen
  refine ⟨?state, fun t ht hrst => ?ready⟩
  case state =>
    rw [hstep, raiseInvalidLength, respond, nextCycle, hin, List.tail_cons]
  case ready =>
    cases hstep.symm.trans ht
    simp [cmdReady, hrst, hb]

end Sys2Proof.Machine
end

section
/-!
SUPPORT. The events of a busy engine (R217, R245), reset edges held over several samples (R240), and
an idle engine that is offered nothing (R226).
-/

namespace Sys2Proof.Machine

/-! ### The ports of a step -/

theorem currentPins_of_cons {s : State} {p : Pins} {rest : List Pins} (h : s.inputs = p :: rest) :
    currentPins s = p := by
  rw [currentPins, h, List.headD_cons]

/-- Where no sample offers a command, none is offered now, nor past the end of the samples. -/
theorem cmdValid_currentPins_of_forall {s : State} (h : ∀ q ∈ s.inputs, q.cmdValid = false) :
    (currentPins s).cmdValid = false := by
  cases hin : s.inputs with
  | nil => simp [currentPins, hin, Pins.idle]
  | cons p rest => exact currentPins_of_cons hin ▸ h p (by simp [hin])

/-- A command is accepted exactly when it is offered to an idle engine without a reset (R245). -/
theorem stepEvent_eq_accept_iff {s : State} (hd : s.resetDone = true) (word : BitVec 10)
    (wdata : Bytes48) :
    stepEvent s = .accept word wdata ↔
      ((currentPins s).cmdValid = true ∧ s.busy = false ∧ (currentPins s).rst = false) ∧
        word = (currentPins s).cmd ∧ wdata = (currentPins s).wdata := by
  constructor
  · intro h
    obtain ⟨hr, -, hb, hv, hcmd, hwdata⟩ := of_stepEvent_accept h
    exact ⟨⟨hv, hb, hr⟩, hcmd.symm, hwdata.symm⟩
  · rintro ⟨⟨hv, hb, hr⟩, rfl, rfl⟩
    exact stepEvent_accept hr hd hb hv

/-- While a `PERM` runs, of the ports only `rst` is looked at (R217, R245). -/
theorem stepEvent_of_busy {s : State} (hd : s.resetDone = true) (hb : s.busy = true) :
    stepEvent s = if (currentPins s).rst then .reset else .slot := by
  split
  next hr => exact stepEvent_reset hr
  next hr => exact stepEvent_slot (Bool.eq_false_of_not_eq_true hr) hd hb

/-! ### Reset edges -/

theorem step_of_rst {s : State} (h : (currentPins s).rst = true) : step s = .next (resetEdge s) :=
  step_of_reset (stepEvent_reset h)

/-- During reset `cmd_ready` is 0, before the first reset too (R242, R244). -/
theorem outCmdReady_of_rst {s : State} (h : (currentPins s).rst = true) :
    outCmdReady s = false := by
  simp [outCmdReady, cmdReady, h]

/-- Reset over one and any number of further edges: the registers as after one edge, one sample
used up at each edge (R240). -/
theorem run_of_rst {s : State} {p : Pins} {resets rest : List Pins}
    (hin : s.inputs = p :: (resets ++ rest)) (hp : p.rst = true)
    (hresets : ∀ q ∈ resets, q.rst = true) :
    core.run (resets.length + 1) s =
      .next { resetRegisters s with inputs := rest, tick := s.tick + (resets.length + 1) } := by
  induction resets generalizing p s with
  | nil =>
    rw [List.length_nil, run_of_step 0 (step_of_rst (currentPins_of_cons hin ▸ hp))]
    simp [Host.Core.run, resetEdge, resetRegisters, nextCycle, hin]
  | cons q resets ih =>
    obtain ⟨hq, hresets⟩ := List.forall_mem_cons.mp hresets
    have htail : (resetEdge s).inputs = q :: (resets ++ rest) := by simp [hin]
    rw [List.length_cons, run_of_step _ (step_of_rst (currentPins_of_cons hin ▸ hp)),
      ih htail hq hresets, resetEdge_tick, Nat.add_right_comm, Nat.add_assoc]
    rfl

/-! ### An engine with nothing to do -/

/-- The engine is idle and the host offers nothing from now on; it may still reset the engine. -/
structure Quiet (s : State) : Prop where
  idle : s.busy = false
  noOffer : ∀ q ∈ s.inputs, q.cmdValid = false

theorem quiet_resetEdge {s : State} (h : ∀ q ∈ s.inputs.tail, q.cmdValid = false) :
    Quiet (resetEdge s) := ⟨rfl, h⟩

/-- A quiet engine stays quiet and does not respond (R226, R240). -/
theorem Quiet.step_next {s : State} (h : Quiet s) :
    ∃ t, step s = .next t ∧ t.rsp = none ∧ Quiet t := by
  have hrest : ∀ q ∈ s.inputs.tail, q.cmdValid = false := fun q hq =>
    h.noOffer q (List.mem_of_mem_tail hq)
  cases hr : (currentPins s).rst with
  | true => exact ⟨_, step_of_rst hr, rfl, quiet_resetEdge hrest⟩
  | false =>
    have hidle := stepEvent_idle hr (cmdValid_currentPins_of_forall h.noOffer) fun _ => h.idle
    exact ⟨_, step_of_idle hidle, rfl, h.idle, hrest⟩

/-- The responses of a run are that of its first step, if any, and those of the rest. -/
theorem responses_of_step {s t : State} (n : Nat) (h : step s = .next t) :
    responses (n + 1) s = t.rsp.toList ++ responses n t := by
  rw [responses, h]

/-- A quiet engine never responds. -/
theorem Quiet.responses_eq_nil {s : State} (h : Quiet s) (n : Nat) : responses n s = [] := by
  induction n generalizing s with
  | zero => rfl
  | succ n ih =>
    obtain ⟨t, hst, hrsp, ht⟩ := h.step_next
    rw [responses_of_step n hst, hrsp, ih ht]
    rfl

end Sys2Proof.Machine
end

section
/-!
PROOFS. The statements about reset and about offers that wait.
-/

namespace Sys2Proof.Machine

/-- Settles O37: the acceptance is read off the event, and the event of a busy engine does not look
at `cmd_valid`. -/
theorem commandIsAcceptedWhenReady : Obligations.CommandIsAcceptedWhenReady := by
  unfold Obligations.CommandIsAcceptedWhenReady
  refine ⟨fun s hd => ?accepted, fun s word d haccept => ?onPorts,
    fun s p rest hd hb hin => ?waits⟩
  case accepted => simp [stepEvent_eq_accept_iff hd]
  case onPorts =>
    obtain ⟨-, -, -, -, hcmd, hwdata⟩ := of_stepEvent_accept haccept
    exact ⟨hcmd.symm, hwdata.symm⟩
  case waits =>
    refine step_eq_of_stepEvent_eq ?event (by simp [nextCycle, hin])
    rw [stepEvent_of_busy hd hb, stepEvent_of_busy (s := { s with inputs := _ :: rest }) hd hb,
      currentPins_of_cons hin, currentPins_of_cons rfl]

/-- Settles O49: there is a first edge, and the further ones find the registers as it left them. -/
theorem resetEdgesZeroTheEngine : Obligations.ResetEdgesZeroTheEngine := by
  unfold Obligations.ResetEdgesZeroTheEngine
  intro n s rests rest hlen hrst hin
  obtain ⟨p, resets, rfl⟩ := List.exists_cons_of_length_eq_add_one hlen
  obtain rfl : resets.length = n := by simpa using hlen
  obtain ⟨hp, hresets⟩ := List.forall_mem_cons.mp hrst
  exact ⟨outCmdReady_of_rst (currentPins_of_cons hin ▸ hp), _, run_of_rst hin hp hresets,
    laneAt_zero, rfl, rfl, rfl, rfl, rfl, rfl⟩

/-- Settles O50: the reset edge comes before the slot, 41 too, and leaves an idle engine, which
responds to offers only. -/
theorem resetAbandonsAPerm : Obligations.ResetAbandonsAPerm := by
  unfold Obligations.ResetAbandonsAPerm
  intro s p rest _ _ hin hp
  have hstep : step s = .next (resetEdge s) := step_of_rst (currentPins_of_cons hin ▸ hp)
  refine ⟨⟨_, hstep, rfl, rfl, rfl, rfl⟩, fun hoffer n => ?never⟩
  have hquiet : Quiet (resetEdge s) := quiet_resetEdge (by simpa [hin] using hoffer)
  cases n with
  | zero => rfl
  | succ n => rw [responses_of_step n hstep, resetEdge_rsp, hquiet.responses_eq_nil]; rfl

end Sys2Proof.Machine
end

section
/-!
SUPPORT. Encoder and decoder undo each other (R81, R82, R88 to R90): the micro-operations on the one side,
the words of either format on the other; and the number that a command word is (R81, R95).
-/

namespace Sys2Proof

/-- The number of a command word is `(len << 2) OR op` (R81, R95). -/
theorem toNat_cmdWord (len : BitVec 8) (op : BitVec 2) :
    (cmdWord len op).toNat = len.toNat * 4 + op.toNat := by
  have happend : (cmdWord len op).toNat = len.toNat <<< 2 ||| op.toNat := BitVec.toNat_append len op
  rw [happend, ← Nat.shiftLeft_add_eq_or_of_lt op.isLt, Nat.shiftLeft_eq]

/-- The encoding of a micro-operation that exists decodes to it (R88 to R90). -/
theorem decode_encode_of_uop {i : Instr} (hi : i.format = .uop) (hw : i.wf = true) :
    decode (encode i) = .ok i := by
  cases i with
  | clr len wdata => cases hi
  | load len wdata => cases hi
  | perm len wdata => cases hi
  | read len wdata => cases hi
  | spbox => rfl
  | sswap => rfl
  | bswap => rfl
  | addrc idx =>
    have hidx : idx.toNat < 6 := by simpa [Instr.wf] using hw
    simp [encode, decode, decodeUop, hidx]

/-- The four values of `op` and of `kind` (R82, R89). -/
theorem twoBit_cases (b : BitVec 2) : b = 0b00 ∨ b = 0b01 ∨ b = 0b10 ∨ b = 0b11 := by
  revert b
  decide

/-- The command that a word decodes to encodes to that word, payload included (R81, R82). -/
theorem encode_decodeCmd (word : BitVec 10) (wdata : Bytes48) :
    encode (decodeCmd word wdata) = .cmd word wdata := by
  have hword : ∀ op, cmdOp word = op → cmdWord (cmdLen word) op = word := by
    rintro _ rfl
    exact cmdWord_fields word
  unfold decodeCmd
  split_ifs with h0 h1 h2
  · rw [encode, hword _ h0]
  · rw [encode, hword _ h1]
  · rw [encode, hword _ h2]
  · have h3 : cmdOp word = 0b11 := by
      have hcases := twoBit_cases (cmdOp word)
      tauto
    rw [encode, hword _ h3]

/-- The micro-operation that a word decodes to encodes to that word (R88 to R90). -/
theorem encode_of_decodeUop {word : BitVec 5} {i : Instr} (h : decodeUop word = .ok i) :
    encode i = .uop word := by
  have hword : ∀ idx kind, uopIdx word = idx → uopKind word = kind → uopWord idx kind = word := by
    rintro _ _ rfl rfl
    exact uopWord_fields word
  unfold decodeUop at h
  split_ifs at h with h3 hidx hidx h0 h1
  · cases h; rw [encode, hword _ _ rfl h3]
  · cases h; rw [encode, hword _ _ (not_not.mp hidx) h0]
  · cases h; rw [encode, hword _ _ (not_not.mp hidx) h1]
  · have h2 : uopKind word = 0b10 := by
      have hcases := twoBit_cases (uopKind word)
      tauto
    cases h; rw [encode, hword _ _ (not_not.mp hidx) h2]

end Sys2Proof
end

section
/-!
SUPPORT. The constant indexes without a constant (R90), the samples of a script line (R95), and what a run
of several steps keeps (R214).
-/

namespace Sys2Proof.Machine

/-- `ADDRC` with an index that reads no constant is refused as its own word (R90). -/
theorem exec_addrc_of_ge {idx : BitVec 3} (h : 6 ≤ idx.toNat) (s : State) :
    exec (.addrc idx) s = .refused (.reservedUop (uopWord idx 0b11)) := by
  simp only [exec, execAddrc, roundConstant_of_ge h]

/-- A reset edge leads to a legal state from any registers, once the stores hold the spec's constants
(R243). -/
theorem inv_resetEdge {s : State} (hrom : s.rom = scheduleRom) (hrc : s.rc = roundConstants) :
    (resetEdge s).Inv :=
  (inv_iff _).mpr ⟨hrom, hrc, (controlView (nextCycle s)).legal_resetRegisters⟩

/-- A run of any length from a legal state answers a next state, a legal one (R214). -/
theorem run_of_inv (n : Nat) {s : State} (h : s.Inv) : ∃ t, core.run n s = .next t ∧ t.Inv := by
  induction n generalizing s with
  | zero => exact ⟨s, rfl, h⟩
  | succ n ih =>
    obtain ⟨u, hsu⟩ := canStep_of_inv h
    rw [run_of_step n hsu]
    exact ih (inv_of_step h hsu)

/-- A run from a legal state ends in a legal one. -/
theorem inv_of_run {n : Nat} {s t : State} (h : s.Inv) (hrun : core.run n s = .next t) : t.Inv := by
  obtain ⟨u, hu, hinv⟩ := run_of_inv n h
  cases hrun.symm.trans hu
  exact hinv

end Sys2Proof.Machine
end

section
/-!
PROOFS. Decoder and encoder, and the invariant: it holds at reset, every step keeps it, and no step from a
state that meets it stops.
-/

namespace Sys2Proof.Machine

/-- Settles O1: a command is read back field by field, and of the micro-operations only a constant index
of 6 or 7 would be refused. -/
theorem decodeInvertsEncode : Obligations.DecodeInvertsEncode := by
  unfold Obligations.DecodeInvertsEncode
  intro i hw
  cases hi : i.format with
  | cmd => exact decode_encode_of_cmd hi
  | uop => exact decode_encode_of_uop hi hw

/-- Settles O2: a word is its fields, and the reserved uop words do not decode. -/
theorem encodeInvertsDecode : Obligations.EncodeInvertsDecode := by
  unfold Obligations.EncodeInvertsDecode
  intro e i h
  cases e with
  | cmd word wdata =>
    cases h
    obtain ⟨hformat, hwf⟩ := decodeCmd_format word wdata
    exact ⟨encode_decodeCmd word wdata, hwf, hformat⟩
  | uop word =>
    obtain ⟨hformat, hwf⟩ := decodeUop_ok h
    exact ⟨encode_of_decodeUop h, hwf, hformat⟩

/-- Settles O3: each word is the encoding of what it stands for. -/
theorem specWordsDecode : Obligations.SpecWordsDecode := by
  unfold Obligations.SpecWordsDecode
  have hdecode := decodeInvertsEncode
  unfold Obligations.DecodeInvertsEncode at hdecode
  exact fun d => ⟨hdecode (.clr 0 d) rfl, hdecode (.load 48 d) rfl, hdecode (.load 47 d) rfl,
    hdecode (.load 255 d) rfl, hdecode (.perm 49 d) rfl, hdecode (.read 255 d) rfl,
    hdecode .spbox rfl, hdecode .sswap rfl, hdecode .bswap rfl, hdecode (.addrc 0) rfl,
    hdecode (.addrc 5) rfl⟩

/-- Settles O8: the 42 words are counted. -/
theorem scheduleUopCounts : Obligations.ScheduleUopCounts := by
  unfold Obligations.ScheduleUopCounts
  decide

/-- Settles O9: a line's pins carry the encoding of its instruction. -/
theorem scriptLinesAssemble : Obligations.ScriptLinesAssemble := by
  unfold Obligations.ScriptLinesAssemble
  refine fun n d => ⟨rfl, rfl, rfl, toNat_cmdWord n 0b01, rfl, toNat_cmdWord n 0b01, rfl,
    fun line => ?rst, fun line => ?valid⟩
  case rst => cases line <;> rfl
  case valid => cases line <;> rfl

/-- Settles O31: the constant store has no entry 6 or 7. -/
theorem addrcSixAndSevenAreRefused : Obligations.AddrcSixAndSevenAreRefused := by
  unfold Obligations.AddrcSixAndSevenAreRefused
  exact fun s => ⟨exec_addrc_of_ge (by decide) s, exec_addrc_of_ge (by decide) s⟩

/-- Settles O53: the reset values, field by field. -/
theorem resetStateIsLegal : Obligations.ResetStateIsLegal := by
  unfold Obligations.ResetStateIsLegal
  exact fun ins => ⟨rfl, rfl, rfl, nofun, fun _ => rfl, nofun, nofun⟩

/-- Settles O54: no step writes the stores, and the control machine keeps the rest of the invariant. -/
theorem stepKeepsTheInvariant : Obligations.StepKeepsTheInvariant := by
  unfold Obligations.StepKeepsTheInvariant
  exact fun _ _ hinv hstep => inv_of_step hinv hstep

/-- Settles O55: after the first reset no command is too early, every command answers, and the word at a
slot decodes to a micro-operation that exists. -/
theorem legalStatesNeverStop : Obligations.LegalStatesNeverStop := by
  unfold Obligations.LegalStatesNeverStop
  exact fun _ hinv => canStep_of_inv hinv

/-- Settles O56: the run starts in a legal state. -/
theorem runsFromResetNeverStop : Obligations.RunsFromResetNeverStop := by
  unfold Obligations.RunsFromResetNeverStop
  exact fun ins n => run_of_inv n (resetStateIsLegal ins)

end Sys2Proof.Machine
end

section
/-!
SUPPORT. The memory primitives inside and beyond the view (R54), the permutation on bytes (R124), and what
a micro-operation does to word `A` and to a column (R24, R156).
-/

namespace Sys2Proof.Machine

/-! ### The memory primitives -/

theorem memRead_of_le {addr n : Nat} (h : addr + n ≤ 48) (l : Lanes) :
    memRead addr n l = some (List.ofFn fun t : Fin n => byteAt l ⟨addr + t.val, by omega⟩) := by
  rw [memRead, dif_pos h]

theorem memRead_of_gt {addr n : Nat} (h : 48 < addr + n) (l : Lanes) : memRead addr n l = none := by
  rw [memRead, dif_neg (Nat.not_le.mpr h)]

theorem memWrite_of_le {addr : Nat} {v : List Byte} (h : addr + v.length ≤ 48) (l : Lanes) :
    memWrite addr v l = some (lanesOfBytes fun k =>
      if addr ≤ k.val then (v[k.val - addr]?).getD (byteAt l k) else byteAt l k) := by
  rw [memWrite, if_pos h]

theorem memWrite_of_gt {addr : Nat} {v : List Byte} (h : 48 < addr + v.length) (l : Lanes) :
    memWrite addr v l = none := by
  rw [memWrite, if_neg (Nat.not_le.mpr h)]

/-- The bytes after a write inside the view: those of `v` from `addr` on, the old ones elsewhere (R54). -/
theorem byteAt_of_memWrite {addr : Nat} {v : List Byte} {l l' : Lanes}
    (h : memWrite addr v l = some l') (k : Fin 48) :
    byteAt l' k = if addr ≤ k.val then (v[k.val - addr]?).getD (byteAt l k) else byteAt l k := by
  rw [memWrite] at h
  split at h
  · cases h; rw [byteAt_lanesOfBytes]
  · cases h

/-! ### The permutation on bytes -/

/-- Unpacking after a permutation of bytes undoes its packing (R124). -/
theorem unpack_permuteBytes (v : Bytes48) : unpack (permuteBytes v) = permuteLanes (unpack v) := by
  rw [permuteBytes, unpack_pack]

/-! ### Micro-operations other than SPBOX -/

/-- What a micro-operation other than `SPBOX` does to word `A`, given the constant store (R170 to R172). -/
def uopOnA (i : Instr) (rc : Vector Word 6) : Row → Row :=
  match i with
  | .sswap => smallSwap
  | .bswap => bigSwap
  | .addrc idx => (rc[idx.toNat]?).elim id injectConstant
  | _ => id

/-- Such a micro-operation changes word `A` only, in a way that depends on it and on the constant store. -/
theorem lanes_of_exec_uop {i : Instr} (hi : i.format = .uop) (hne : i ≠ .spbox) {s t : State}
    (h : exec i s = .next t) : t.lanes = onA (uopOnA i s.rc) s.lanes := by
  cases i with
  | clr len wdata => cases hi
  | load len wdata => cases hi
  | perm len wdata => cases hi
  | read len wdata => cases hi
  | spbox => exact absurd rfl hne
  | sswap => cases h; rfl
  | bswap => cases h; rfl
  | addrc idx =>
    simp only [exec, execAddrc] at h
    split at h
    next k hk =>
      cases h
      rw [roundConstant] at hk
      rw [uopOnA, hk, setLanes_lanes, Option.elim_some]
    next => cases h

end Sys2Proof.Machine
end

section
/-!
PROOFS. The memory primitives, the permutation on bytes, and the columns.
-/

namespace Sys2Proof.Machine

/-- Settles O14: inside the view a read lists the bytes from `addr` on and a write is read back byte by
byte; beyond it the bound fails. -/
theorem memoryPrimitivesReadAndWriteBytes : Obligations.MemoryPrimitivesReadAndWriteBytes := by
  unfold Obligations.MemoryPrimitivesReadAndWriteBytes
  refine ⟨fun l addr n h => ⟨_, memRead_of_le h l, List.length_ofFn, fun t k ht hk => ?read⟩,
    fun l addr v h => ⟨_, memWrite_of_le h l, fun t k ht hk => ?written, fun k hk => ?kept⟩,
    fun l _ _ h => memRead_of_gt h l, fun l _ _ h => memWrite_of_gt h l, memRead_whole,
    fun l v => memWrite_whole v l⟩
  case read =>
    have hbyte : k = ⟨addr + t, by omega⟩ := Fin.ext hk
    rw [List.getElem?_ofFn, dif_pos ht, hbyte]
  case written =>
    have hoffset : k.val - addr = t := by omega
    rw [byteAt_of_memWrite (memWrite_of_le h l), if_pos (by omega), hoffset,
      List.getElem?_eq_getElem ht, Option.getD_some]
  case kept =>
    rw [byteAt_of_memWrite (memWrite_of_le h l)]
    split
    next hle => rw [List.getElem?_eq_none (by omega), Option.getD_none]
    next => rfl

/-- Settles O47, by induction on `k`: the packing after one permutation and the unpacking before the next
cancel. -/
theorem stayingOnLanesGivesTheSameBytes : Obligations.StayingOnLanesGivesTheSameBytes := by
  unfold Obligations.StayingOnLanesGivesTheSameBytes
  intro k
  induction k with
  | zero => exact fun v => (pack_unpack v).symm
  | succ k ih =>
    intro v
    rw [Function.iterate_succ_apply, ih, unpack_permuteBytes, permuteTimes]

/-- Settles O27: `SPBOX` makes each new column of the old one, and every other micro-operation changes word
`A` only. -/
theorem uopsKeepBAndCInTheirColumns : Obligations.UopsKeepBAndCInTheirColumns := by
  unfold Obligations.UopsKeepBAndCInTheirColumns
  refine ⟨fun i j s s' t t' hi hcol ht ht' => ?columns, fun i s s' t t' hi hne hA hrc ht ht' => ?wordA⟩
  case columns =>
    by_cases hspbox : i = .spbox
    · subst hspbox
      rw [exec_spbox] at ht ht'
      cases ht
      cases ht'
      have hnew : column (mixLanes s.lanes) j = column (mixLanes s'.lanes) j := by
        rw [column_mixLanes, column_mixLanes, hcol]
      obtain ⟨ha, hb, hc⟩ := Column.mk.inj hnew
      exact ⟨hb, hc, fun _ => ha⟩
    · obtain ⟨-, hb, hc⟩ := Column.mk.inj hcol
      rw [lanes_of_exec_uop hi hspbox ht, lanes_of_exec_uop hi hspbox ht']
      exact ⟨hb, hc, fun h => absurd h hspbox⟩
  case wordA =>
    rw [lanes_of_exec_uop hi hne ht, lanes_of_exec_uop hi hne ht', onA_A, onA_A, hA, hrc]

end Sys2Proof.Machine
end

section
/-!
SUPPORT. Seven slots up to the last one (R173, R176), and the responses of a run: those of its parts in
order (R251), and of a run that is silent until its last step (R178).
-/

namespace Sys2Proof.Machine

/-- The last slots of a `PERM`, from slot `k` to the response (R176, R178). -/
theorem run_last_slots (n : Nat) {k : Nat} {s : State} (h : AtSlot k s) (hn : k + n = 41)
    (hr : ∀ p ∈ s.inputs.take (n + 1), p.rst = false) :
    ∃ t, core.run (n + 1) s = .next t ∧ t.lanes = slotsLanes k (n + 1) s.lanes ∧
      t.busy = false ∧ t.pc = 0 := by
  induction n generalizing k s with
  | zero =>
    obtain rfl : k = 41 := hn
    obtain ⟨t, hst, hlanes, hb, hpc, -, -⟩ := h.step_of_last (no_reset_of_take_succ hr).1
    exact ⟨t, run_of_step 0 hst, hlanes, hb, hpc⟩
  | succ n ih =>
    obtain ⟨hr, hrest⟩ := no_reset_of_take_succ hr
    obtain ⟨u, hsu, hu, hlanes, hinputs⟩ := h.step_to_next (by omega) hr
    obtain ⟨t, hut, hlanes', hend⟩ := ih hu (by omega) (hinputs ▸ hrest)
    exact ⟨t, (run_of_step (n + 1) hsu).trans hut, by rw [hlanes', hlanes, ← slotsLanes_succ], hend⟩

/-! ### Responses -/

/-- The responses of a run in two parts (R251). -/
theorem responses_add {m : Nat} (n : Nat) {s t : State} (h : core.run m s = .next t) :
    responses (m + n) s = responses m s ++ responses n t := by
  induction m generalizing s with
  | zero => cases h; rw [Nat.zero_add, responses, List.nil_append]
  | succ m ih =>
    obtain ⟨u, hsu, hut⟩ := run_succ_next h
    rw [Nat.add_right_comm, responses_of_step _ hsu, responses_of_step m hsu, ih hut,
      List.append_assoc]

/-- A run that is silent before its last step answers what that step answers. -/
theorem responses_of_silent_run {n : Nat} {s t : State}
    (hsilent : ∀ k < n, ∃ u, core.run (k + 1) s = .next u ∧ u.rsp = none)
    (h : core.run (n + 1) s = .next t) : responses (n + 1) s = t.rsp.toList := by
  induction n generalizing s with
  | zero =>
    obtain ⟨u, hsu, hut⟩ := run_succ_next h
    cases hut
    rw [responses_of_step 0 hsu, responses, List.append_nil]
  | succ n ih =>
    obtain ⟨u, hsu, hut⟩ := run_succ_next h
    obtain ⟨u', hu', hrsp⟩ := hsilent 0 n.succ_pos
    cases (run_of_step 0 hsu).symm.trans hu'
    have hrest : ∀ k < n, ∃ v, core.run (k + 1) u = .next v ∧ v.rsp = none := fun k hk => by
      obtain ⟨v, hv, hnone⟩ := hsilent (k + 1) (Nat.succ_lt_succ hk)
      exact ⟨v, (run_of_step (k + 1) hsu).symm.trans hv, hnone⟩
    rw [responses_of_step (n + 1) hsu, hrsp, ih hrest hut, Option.toList_none, List.nil_append]

/-! ### The script PERMN -/

/-- The host of `PERMN (k + 1)` offers a `PERM`, drives idle pins for its 42 slots, and goes on as for
`PERMN k` (R95, R97). -/
theorem scriptSamples_permN_succ (k : Nat) :
    scriptSamples (expandPseudo (.permN (k + 1))) =
      ⟨false, true, 0x002, Vector.replicate 48 0⟩ ::
        (List.replicate 42 Pins.idle ++ scriptSamples (expandPseudo (.permN k))) := rfl

/-- A script line `PERM` permutes the lanes and answers OK once, in 43 steps (R95, R177 to R179). -/
theorem run_perm_line {s : State} {rest : List Pins} (hinv : s.Inv) (hb : s.busy = false)
    (hin : s.inputs =
      ⟨false, true, 0x002, Vector.replicate 48 0⟩ :: (List.replicate 42 Pins.idle ++ rest)) :
    ∃ t, core.run 43 s = .next t ∧ t.lanes = permuteLanes s.lanes ∧ t.busy = false ∧
      t.inputs = rest ∧ responses 43 s = [⟨false, none⟩] := by
  have hquiet : ∀ p ∈ (List.replicate 42 Pins.idle ++ rest).take 42, p.rst = false := fun p hp => by
    rw [List.take_left' List.length_replicate] at hp
    rw [List.eq_of_mem_replicate hp, Pins.idle]
  have hperm := permComputesThePermutation
  unfold Obligations.PermComputesThePermutation at hperm
  obtain ⟨-, hslots, t, hrun, hlanes, -, hidle, -, hrsp, hinputs⟩ :=
    hperm s 0x002 _ _ hinv hb hin rfl hquiet
  have hsilent : ∀ k < 42, ∃ u, core.run (k + 1) s = .next u ∧ u.rsp = none := fun k hk => by
    obtain ⟨u, hu, -, -, hnone⟩ := hslots k hk
    exact ⟨u, hu, hnone⟩
  refine ⟨t, hrun, hlanes, hidle, ?_, ?_⟩
  · rw [hinputs, List.drop_left' List.length_replicate]
  · rw [responses_of_silent_run hsilent hrun, hrsp, Option.toList_some]

end Sys2Proof.Machine
end

section
/-!
PROOFS. The big round and the script of `k` permutations.
-/

namespace Sys2Proof.Machine

/-- Settles O43: the seven slots are big round `i`; the last round ends the `PERM`, any other leads to the
next round's first slot. -/
theorem sevenSlotsAreOneBigRound : Obligations.SevenSlotsAreOneBigRound := by
  unfold Obligations.SevenSlotsAreOneBigRound
  intro s i hinv hb hpc hr
  have hslot : AtSlot (7 * i.val) s := ⟨hinv, hb, hpc⟩
  have hround := slotsLanes_eq_bigRound i s.lanes
  rw [bigRound] at hround
  by_cases hlast : i.val = 5
  · obtain ⟨t, hrun, hlanes, hidle, hpc⟩ := run_last_slots 6 hslot (by omega) hr
    exact ⟨t, hrun, hlanes.trans hround, by rw [if_pos hlast]; exact ⟨hidle, hpc⟩⟩
  · obtain ⟨t, hrun, ht, hlanes, -⟩ := run_slots 7 hslot (by omega) hr
    exact ⟨t, hrun, hlanes.trans hround, by rw [if_neg hlast]; exact ⟨ht.busy, ht.pc⟩⟩

/-- Settles O45, by induction on `k`: the first line permutes and answers in 43 steps, and leaves a legal
idle engine that is driven with the samples of the other lines. -/
theorem permNComputesThePowerOfP : Obligations.PermNComputesThePowerOfP := by
  unfold Obligations.PermNComputesThePowerOfP
  intro k
  induction k with
  | zero => exact fun s rest _ hb hin => ⟨rfl, s, rfl, rfl, hb, hin⟩
  | succ k ih =>
    intro s rest hinv hb hin
    rw [scriptSamples_permN_succ, List.cons_append, List.append_assoc] at hin
    obtain ⟨u, hsu, hlanes, hidle, hinputs, hresponse⟩ := run_perm_line hinv hb hin
    obtain ⟨hresponses, t, hut, hlanes', hend⟩ := ih u rest (inv_of_run hinv hsu) hidle hinputs
    have hlength : 43 * (k + 1) = 43 + 43 * k := by omega
    rw [hlength]
    refine ⟨?answers, t, (run_add 43 _ hsu).trans hut, ?lanes, hend⟩
    case answers => rw [responses_add _ hsu, hresponse, hresponses]; rfl
    case lanes => rw [hlanes', hlanes, permuteTimes]

end Sys2Proof.Machine
end

section
/-!
SUPPORT. The steps one by one: a slot outside the ROM (R26), which commands and slots respond (R246), and
what the ports show after the first reset (R244, R248).
-/

namespace Sys2Proof.Machine

/-- Where `pc` is no slot nothing is fetched (R26). -/
theorem fetchSlot_of_ge {s : State} (h : 42 ≤ s.pc.toNat) : fetchSlot s = none :=
  Vector.getElem?_eq_none h

theorem schedulerStep_of_ge {s : State} (h : 42 ≤ s.pc.toNat) :
    schedulerStep s = .fault .slotOutsideRom := by
  rw [schedulerStep, fetchSlot_of_ge h]

/-! ### Responses -/

/-- Of the four commands only `PERM` gives no response when it is accepted (R177, R246). -/
theorem ControlView.command_responds_iff {v : ControlView} (hr : v.rsp = none) (word : BitVec 10) :
    (v.command word).rsp ≠ none ↔ cmdOp word ≠ 0b10 := by
  unfold ControlView.command
  split_ifs with hclr hload hperm
  · simp [hclr]
  · simp [hload]
  · simp [hr, hperm]
  · exact iff_of_true (by simp) hperm

theorem rsp_controlView_ne_none_iff (s : State) : (controlView s).rsp ≠ none ↔ s.rsp ≠ none :=
  not_congr Option.map_eq_none_iff

/-- The next state of an accepted command shows a response unless the command is a `PERM`. -/
theorem rsp_ne_none_iff_of_exec_decodeCmd {s t : State} {word : BitVec 10} {wdata : Bytes48}
    (h : exec (decodeCmd word wdata) (nextCycle s) = .next t) :
    t.rsp ≠ none ↔ cmdOp word ≠ 0b10 := by
  rw [← rsp_controlView_ne_none_iff, controlView_exec_decodeCmd h]
  exact ControlView.command_responds_iff rfl word

/-! ### The ports after the first reset -/

theorem outCmdReady_of_resetDone {s : State} (h : s.resetDone = true) :
    outCmdReady s = (!s.busy && !(currentPins s).rst) := by
  rw [outCmdReady, if_pos h, cmdReady]

theorem outRspValid_of_resetDone {s : State} (h : s.resetDone = true) :
    outRspValid s = s.rsp.isSome := by
  rw [outRspValid, if_pos h]

theorem outRspErr_of_rsp {s : State} {r : Response} (h : s.resetDone = true) (hr : s.rsp = some r) :
    outRspErr s = r.err := by
  rw [outRspErr, h, hr]

theorem outRspRdata_of_rsp {s : State} {e : Bool} {v : Bytes48} (h : s.resetDone = true)
    (hr : s.rsp = some ⟨e, some v⟩) : outRspRdata s = v := by
  rw [outRspRdata, h, hr]

end Sys2Proof.Machine
end

section
/-!
PROOFS. The statements about single steps, responses, ports and the reset values.
-/

namespace Sys2Proof.Machine

/-- Settles O22: the state after the failed `LOAD` differs in the response only, which the next step does
not read. -/
theorem failedLoadIsForgotten : Obligations.FailedLoadIsForgotten := by
  unfold Obligations.FailedLoadIsForgotten
  intro s t word d rest hinv hb hin hop hlen hstep
  have hnothing := invalidLengthChangesNothing
  unfold Obligations.InvalidLengthChangesNothing at hnothing
  obtain ⟨hstate, -⟩ := hnothing s word d rest hinv hb hin hop hlen
  cases hstep.symm.trans hstate
  exact step_eq_of_stepEvent_eq rfl rfl

/-- Settles O39: of the events only an acceptance and a slot can respond, and a legal busy state shows no
response. -/
theorem responseAppearsExactlyOnCompletion : Obligations.ResponseAppearsExactlyOnCompletion := by
  unfold Obligations.ResponseAppearsExactlyOnCompletion
  refine ⟨fun s t _ hstep => ?_, fun s t hinv hstep => (inv_of_step hinv hstep).rspBusy⟩
  obtain ⟨he, rfl⟩ | ⟨word, wdata, he, hexec⟩ | ⟨he, hslot⟩ | ⟨he, rfl⟩ := step_next hstep
  · simp [he]
  · simp [he, rsp_ne_none_iff_of_exec_decodeCmd hexec]
  · simp [he, rsp_of_schedulerStep hslot]
  · simp [he]

/-- Settles O52: the edge resets every register but the stores, which hold the spec's constants already. -/
theorem oneResetEdgeIsEnoughToBoot : Obligations.OneResetEdgeIsEnoughToBoot := by
  unfold Obligations.OneResetEdgeIsEnoughToBoot
  intro s hrom hrc hrst
  refine ⟨resetEdge s, step_of_rst hrst, inv_resetEdge hrom hrc, rfl, fun hnext => ?ready⟩
  case ready => rw [outCmdReady_of_resetDone rfl, hnext, resetEdge_busy]; rfl

/-- Settles O18: `PERM` writes the two control registers only. -/
theorem permStartsTheScheduler : Obligations.PermStartsTheScheduler := by
  unfold Obligations.PermStartsTheScheduler
  refine ⟨fun len d s => ?_, fun len d => decode_encode_of_cmd (i := .perm len d) rfl,
    acceptedOnlyWhenIdle _⟩
  have hexec := exec_perm len d s
  exact ⟨_, hexec, rfl, rfl, rfl, keepsMemory_of_lanes_eq rfl, keepsStoresAndHost_of_exec hexec⟩

/-- Settles O32: the event is a slot, and the word fetched is the one at `pc`. -/
theorem slotRunsTheDecodedUop : Obligations.SlotRunsTheDecodedUop := by
  unfold Obligations.SlotRunsTheDecodedUop
  intro s word i hd hb hr hword hdecode
  rw [step_of_slot (stepEvent_slot hr hd hb)]
  exact schedulerStep_of_decodeUop hword hdecode

/-- Settles O33: the event is the acceptance of the command on the ports. -/
theorem acceptedCommandIsExecuted : Obligations.AcceptedCommandIsExecuted := by
  unfold Obligations.AcceptedCommandIsExecuted
  intro s word d rest i hd hb hin hdecode
  cases hdecode
  have hpins := currentPins_of_cons hin
  have haccept : stepEvent s = .accept word d := by
    rw [stepEvent_accept (by rw [hpins]) hd hb (by rw [hpins]), hpins]
  rw [step_of_accept haccept, nextCycle, hin, List.tail_cons]

/-- Settles O35: nothing is fetched from outside the ROM. -/
theorem slotOutsideTheRomFaults : Obligations.SlotOutsideTheRomFaults := by
  unfold Obligations.SlotOutsideTheRomFaults
  intro s hd hb hr hpc
  rw [step_of_slot (stepEvent_slot hr hd hb), schedulerStep_of_ge hpc]

/-- Settles O38: the step uses the sample up and takes the old response away. -/
theorem idleEngineHoldsItsState : Obligations.IdleEngineHoldsItsState := by
  unfold Obligations.IdleEngineHoldsItsState
  intro s hready hv
  exact ⟨nextCycle s, step_of_idle (stepEvent_idle hready.noReset hv fun _ => hready.idle),
    keepsMemory_of_lanes_eq rfl, hready.idle, rfl, rfl, rfl, rfl⟩

/-- Settles O40: after the first reset no port that has a meaning shows a free value. -/
theorem outputPortsShowReadyAndResponse : Obligations.OutputPortsShowReadyAndResponse := by
  unfold Obligations.OutputPortsShowReadyAndResponse
  refine fun s hd => ⟨outCmdReady_of_resetDone hd, ?valid, fun r hr => outRspErr_of_rsp hd hr,
    fun e v hr => outRspRdata_of_rsp hd hr⟩
  case valid => rw [outPins, outRspValid_of_resetDone hd, Option.isSome_iff_ne_none]

/-- Settles O48: the registers are read off the reset state, which is idle. -/
theorem resetValues : Obligations.ResetValues := by
  unfold Obligations.ResetValues
  exact ⟨laneAt_zero, rfl, rfl, rfl, rfl, rfl, fun ins => outCmdReady_of_resetDone rfl⟩

/-- Settles O51: without a reset edge an offered command comes too early, and any other sample is only used
up. -/
theorem nothingRunsBeforeTheFirstReset : Obligations.NothingRunsBeforeTheFirstReset := by
  unfold Obligations.NothingRunsBeforeTheFirstReset
  intro s hd hr
  refine ⟨fun hv => step_of_tooEarly (stepEvent_tooEarly hr hd hv),
    fun hv => ⟨nextCycle s, step_of_idle (stepEvent_idle hr hv fun hdone => ?done), hd, rfl⟩⟩
  case done => rw [hd] at hdone; cases hdone

end Sys2Proof.Machine
end
